-- ==== Sys2Proof/Config.lean ====
section
/-! DEFINITION. The parameters of the hardware: one name for each row of 00_scope.md R7, read by the definitions that
depend on it. The rows whose values have types of State keep their names beside those types: `Config.flReset` in
Machine/State.lean and `Config.faultCode` in Machine/Ops.lean. Two rows are OPEN: `OPC` is the argument `OpcodeMap` of the
decoder and encoder (default `opcDefault`, Decode.lean), and `SP_INIT` is an argument of `State.launch` with the default
below. DESIGN CHOICE, log entry 9: the decided rows have the one value the spec decides.

A width inside a type is written `delta% Config.<name>`, which is that name's value at the place it is written: the type
follows the parameter and proofs see the number. -/

namespace Sys2Proof

/-- MEM_SIZE: the number of byte cells of Memory; the valid addresses are 0..255 (R7). Read by the range tests of the
memory form, the fetch and the launch. -/
def Config.memSize : Nat := 256

/-- CELL_BITS: the width of a memory cell (R7). Read by `Byte`. -/
def Config.cellBits : Nat := 8

/-- NREG: the number of general registers (R7). Read by `RegIdx`, the register file and the register operand test. -/
def Config.nReg : Nat := 8

/-- XLEN: the width of a general register (R7). Read by the register file's type and by the addition. -/
def Config.xlen : Nat := 8

/-- SP_INDEX: the register PUSH, POP, CALL and RET use as stack pointer (R7, R25). -/
def Config.spIndex : Fin (delta% Config.nReg) := 7

/-- PC_BITS: the width of the program counter (R7, R26). Read by `PcWord`. -/
def Config.pcBits : Nat := 9

/-- PC_RESET: the program counter after reset (R7, R26). -/
def Config.pcReset : BitVec (delta% Config.pcBits) := 0

/-- SP_INIT: the default of the OPEN parameter, register 7 after reset (R7, R24). DESIGN CHOICE, log entry 2: unsafe. -/
def Config.spInit : BitVec (delta% Config.xlen) := 0

/-- The overflow policies the source leaves open that give a register value (R114). -/
inductive OverflowPolicy where
  /-- The sum modulo 2^XLEN. -/
  | wrap
  /-- The sum, or the largest register value when the sum exceeds it. -/
  | saturate
  deriving DecidableEq, Repr

/-- OVERFLOW_POLICY: wrap modulo 256 (R7, D2). Read by the addition. -/
def Config.overflowPolicy : OverflowPolicy := .wrap

/-- MUL_WRITEBACK: MUL emits its product and writes no register (R7, R111, D4). Read by the meaning of MUL. -/
def Config.mulWriteback : Bool := false

/-- OUT_BITS: the width of a value on the output interface (R7, R37). Read by `OutWord`. -/
def Config.outBits : Nat := 16

end Sys2Proof
end

