-- ==== Sys2Proof/Word.lean ====
section
/-! DEFINITION. The word types of the CA core, at the widths of Config.lean (00_scope.md R7, R9; 10_state.md R20). Widths
only: every computation on them stands in Decode.lean or under Machine/. -/

namespace Sys2Proof

/-- A byte: a memory cell, an opcode or an operand (R9, R36). Unsigned, 0..255. -/
abbrev Byte := BitVec (delta% Config.cellBits)

/-- The value of a general register (R21). As wide as a byte: LDI and POP move bytes into registers unchanged. -/
abbrev RegWord := BitVec (delta% Config.xlen)

/-- The program counter's 9-bit word, 0..256 in every reachable state (R26). -/
abbrev PcWord := BitVec (delta% Config.pcBits)

/-- A value on the output interface (R37). -/
abbrev OutWord := BitVec (delta% Config.outBits)

/-- The fault information register's 16-bit word (R35). -/
abbrev InfoWord := BitVec 16

/-- The fault cause register's 4-bit word (R35). -/
abbrev CauseWord := BitVec 4

/-- The index of a general register, 0..7 (R21). -/
abbrev RegIdx := Fin (delta% Config.nReg)

end Sys2Proof
end

