-- ==== Sys2Proof/Syntax.lean ====
section
/-! DEFINITION. The instructions of the CA core as syntax: the 13 mnemonics and their formats (30_encoding.md R72, R77),
the instruction with its operand bytes, and the assembly notation (R83). -/

namespace Sys2Proof

/-- The 13 mnemonics, in the order of the instruction table (R77). -/
inductive Mnemonic where
  | ldi | prn | mul | add | cmp | jmp | jeq | jne | push | pop | call | ret | hlt
  deriving DecidableEq, Repr

/-- The four instruction formats (R72). -/
inductive Format where
  /-- opcode alone -/
  | z
  /-- opcode, register index -/
  | r
  /-- opcode, register index, register index -/
  | rr
  /-- opcode, register index, immediate -/
  | ri
  deriving DecidableEq, Repr

/-- An instruction: its mnemonic and its operand BYTES. A register operand stays a whole byte, because a byte of 8..255
in a register position decodes and is a fault of the handler (R74, R81). -/
inductive Instr where
  | ldi  (a : Byte) (imm : Byte)
  | prn  (a : Byte)
  | mul  (a : Byte) (b : Byte)
  | add  (a : Byte) (b : Byte)
  | cmp  (a : Byte) (b : Byte)
  | jmp  (a : Byte)
  | jeq  (a : Byte)
  | jne  (a : Byte)
  | push (a : Byte)
  | pop  (a : Byte)
  | call (a : Byte)
  | ret
  | hlt
  deriving DecidableEq, Repr

/-- The row of the instruction table an instruction belongs to (R77). -/
def Instr.mnemonic : Instr → Mnemonic
  | .ldi _ _ => .ldi
  | .prn _ => .prn
  | .mul _ _ => .mul
  | .add _ _ => .add
  | .cmp _ _ => .cmp
  | .jmp _ => .jmp
  | .jeq _ => .jeq
  | .jne _ => .jne
  | .push _ => .push
  | .pop _ => .pop
  | .call _ => .call
  | .ret => .ret
  | .hlt => .hlt

/-- The operand bytes in register positions, first operand first (R72, R77). LDI's second byte is an immediate (R75). -/
def Instr.regOperands : Instr → List Byte
  | .ldi a _ => [a]
  | .prn a => [a]
  | .mul a b => [a, b]
  | .add a b => [a, b]
  | .cmp a b => [a, b]
  | .jmp a => [a]
  | .jeq a => [a]
  | .jne a => [a]
  | .push a => [a]
  | .pop a => [a]
  | .call a => [a]
  | .ret => []
  | .hlt => []

/-- The spelling of a mnemonic (R77). -/
def Mnemonic.name : Mnemonic → String
  | .ldi => "LDI"
  | .prn => "PRN"
  | .mul => "MUL"
  | .add => "ADD"
  | .cmp => "CMP"
  | .jmp => "JMP"
  | .jeq => "JEQ"
  | .jne => "JNE"
  | .push => "PUSH"
  | .pop => "POP"
  | .call => "CALL"
  | .ret => "RET"
  | .hlt => "HLT"

/-- The assembly notation: the mnemonic, then registers as `R<n>` and LDI's immediate in decimal (R83). An operand byte
above 7 is printed in the same way. DESIGN CHOICE, log entry 11. -/
def Instr.assembly (i : Instr) : String :=
  let regs := i.regOperands.map fun b => " R" ++ toString b.toNat
  let imm := match i with
    | .ldi _ v => " " ++ toString v.toNat
    | _ => ""
  String.join (i.mnemonic.name :: regs) ++ imm

/-- OPC, the OPEN parameter: the opcode byte of each mnemonic (R7, R8). -/
abbrev OpcodeMap := Mnemonic → Byte

/-- What the spec asks of every `OPC`: injective, and no mnemonic has the byte 0x00 (R8). -/
structure OpcodeMap.Admissible (o : OpcodeMap) : Prop where
  injective : Function.Injective o
  nonzero : ∀ m, o m ≠ 0

end Sys2Proof
end

