-- ==== Sys2Proof/Machine/State.lean ====
section
/-! DEFINITION. The whole architectural state of the CA core (10_state.md R20, R38 to R40: nothing else exists), the
reasons a step can stop, and the state after reset. Plain data. -/

namespace Sys2Proof.Machine

/-- Memory as (address, byte) pairs: addresses strictly rising, below 256, no entry equal to what an unlisted address
reads as (R36, R57). -/
abbrev Memory := List Host.Cell

/-- What an address that is not listed reads as: 0, the cells' reset contents (R36, R180; log entry 12). -/
def Memory.unlisted : Byte := 0

/-- The canonical form from address `lo` upward. -/
def Memory.wfFrom : Nat → Memory → Bool
  | _, [] => true
  | lo, (a, v) :: m =>
    decide (lo ≤ a) && decide (a < Config.memSize) && (v != Memory.unlisted) && Memory.wfFrom (a + 1) m

/-- The canonical form: equal memories are equal lists. -/
def Memory.wf (m : Memory) : Bool := Memory.wfFrom 0 m

/-- The FlagRegister: three booleans (R30). -/
structure Flags where
  /-- FL.L, `less_than` -/
  l : Bool
  /-- FL.G, `greater_than` -/
  g : Bool
  /-- FL.E, `equal` -/
  e : Bool
  deriving DecidableEq, Repr

end Sys2Proof.Machine

namespace Sys2Proof

/-- FL_RESET: all three flags 0 (R7, R33, D6). -/
def Config.flReset : Machine.Flags := { l := false, g := false, e := false }

end Sys2Proof

namespace Sys2Proof.Machine

/-- The run state ST (R34). Its encoding 3 is never produced, so it has no constructor. -/
inductive RunState where
  | running
  | halted
  | faulted
  deriving DecidableEq, Repr

/-- The six core faults (60_exceptions.md R150, R151). Taking one is a NEXT state (`State.raise`), never a stop of the
model. -/
inductive CoreFault where
  /-- An opcode with no table entry (R152). -/
  | illegalInstruction
  /-- An address outside 0..255 (R153). -/
  | addressError
  /-- A register operand outside 0..7 (R154). -/
  | registerIndexError
  /-- The stack pointer would fall below 0 (R155). -/
  | stackOverflow
  /-- The stack pointer would rise above 255 (R156). -/
  | stackUnderflow
  /-- An ALU operation outside its set: in the taxonomy, raised by nothing (R116, R157). -/
  | unsupportedOperation
  deriving DecidableEq, Repr

/-- The state of the core, one field per row of R20. -/
structure State where
  /-- `x[0]`..`x[7]` (R21) -/
  regs : Vector RegWord (delta% Config.nReg)
  /-- the program counter (R26) -/
  pc : PcWord
  /-- FL (R30) -/
  flags : Flags
  /-- ST (R34) -/
  st : RunState
  /-- FCAUSE (R35) -/
  fcause : CauseWord
  /-- FINFO (R35) -/
  finfo : InfoWord
  /-- MEM (R36) -/
  mem : Memory
  /-- OUT, oldest value first (R37) -/
  out : List OutWord
  deriving DecidableEq, Repr

/-- Why no step exists (R95). Raised by `step` alone, never by an instruction's meaning. Safe: the spec gives a machine
in these states no step at all. DESIGN CHOICE, log entry 3. -/
inductive Fault where
  /-- `step` raises it when ST = HALTED: the run is over and good (R34, R95). Safe. -/
  | halted
  /-- `step` raises it when ST = FAULTED: the run is over after a core fault (R34, R95, R162). Safe. -/
  | faulted
  deriving DecidableEq, Repr

/-- Why an instruction has no meaning. No arm of `exec` uses it: all 13 instructions are modelled. -/
inductive Refusal where
  /-- `exec` would raise it for an instruction not modelled yet. Safe. -/
  | notModelled (mnemonic : String)
  deriving DecidableEq, Repr

/-- What a meaning or a step answers. -/
abbrev Result := Host.Outcome State Fault Refusal

/-- The reset values of everything but the image, for a given `SP_INIT` (R41, R180). -/
def State.resetWith (spInit : RegWord) : State where
  regs := (Vector.replicate _ 0).set Config.spIndex spInit
  pc := Config.pcReset
  flags := Config.flReset
  st := .running
  fcause := 0
  finfo := 0
  mem := []
  out := []

/-- The machine right after reset, with the empty image and the default `SP_INIT` (R41, R180). -/
def State.reset : State := State.resetWith Config.spInit

end Sys2Proof.Machine
end

