-- ==== Sys2Proof/Machine/Ops.lean ====
section
/-! DEFINITION. The named operations over memory, registers, the program counter, the output and the fault registers
(00_scope.md R11), taking a fault (60_exceptions.md R160) and the two stack-pointer tests (44_stack_and_call.md R130).
There is no return from a fault (R162), so there is no operation for one. -/

namespace Sys2Proof.Machine

/-- `MemRead(a, 1)` (R50): the listed byte, or what an unlisted address reads as. It changes nothing. -/
def Memory.read : Memory → Nat → Byte
  | [], _ => Memory.unlisted
  | (k, v) :: m, a => if a = k then v else Memory.read m a

/-- `MemWrite(a, 1, v)` (R51), keeping the canonical form: writing what an unlisted address reads as removes the entry. -/
def Memory.write : Memory → Nat → Byte → Memory
  | [], a, v => if v = Memory.unlisted then [] else [(a, v)]
  | (k, w) :: m, a, v =>
    if a < k then
      if v = Memory.unlisted then (k, w) :: m else (a, v) :: (k, w) :: m
    else if a = k then
      if v = Memory.unlisted then m else (a, v) :: m
    else (k, w) :: Memory.write m a v

/-- Bytes written at ascending addresses (R84's sequential placement). -/
def Memory.writeBytes : Memory → Nat → List Byte → Memory
  | m, _, [] => m
  | m, a, b :: bs => Memory.writeBytes (m.write a b) (a + 1) bs

/-- `x[r]` (R11, R21). -/
def State.reg (s : State) (r : RegIdx) : Byte := s.regs[r]

/-- `x[r] <- v` (R11, R21). No register is hard-wired. -/
def State.setReg (s : State) (r : RegIdx) (v : RegWord) : State := { s with regs := s.regs.set r v }

/-- `x[7]`, the stack pointer (R25, R130). -/
def State.sp (s : State) : Byte := s.reg Config.spIndex

/-- `x[7] <- v`. -/
def State.setSp (s : State) (v : Byte) : State := s.setReg Config.spIndex v

/-- `pc <- t` (R11). -/
def State.setPc (s : State) (t : PcWord) : State := { s with pc := t }

/-- `pc <- pc + n`: the sequential advance (R27, R94). From a fetched instruction it never wraps (R26). DESIGN CHOICE, log
entry 8: values 257..511 of the 9-bit word are unreachable. -/
def State.advance (s : State) (n : Nat) : State := s.setPc (s.pc + BitVec.ofNat _ n)

/-- A register value or a memory byte as a jump target (R28): zero-extended, so always 0..255. -/
def targetOf (v : Byte) : PcWord := v.setWidth _

/-- `FL <- f`: all three flags at once (R30). -/
def State.setFlags (s : State) (f : Flags) : State := { s with flags := f }

/-- `Emit(v)` (R37): append one value to OUT. -/
def State.emit (s : State) (v : OutWord) : State := { s with out := s.out ++ [v] }

/-- The byte at a byte address; always inside Memory (R52, R53). -/
def State.load (s : State) (a : Byte) : Byte := s.mem.read a.toNat

/-- Write the byte at a byte address; always inside Memory (R52, R53). -/
def State.store (s : State) (a v : Byte) : State := { s with mem := s.mem.write a.toNat v }

end Sys2Proof.Machine

namespace Sys2Proof

/-- FAULT_CODES: the code of each fault (R7, R151, D7). -/
def Config.faultCode : Machine.CoreFault → CauseWord
  | .illegalInstruction => 1
  | .addressError => 2
  | .registerIndexError => 3
  | .stackOverflow => 4
  | .stackUnderflow => 5
  | .unsupportedOperation => 6

end Sys2Proof

namespace Sys2Proof.Machine

/-- `raise F(info)`: taking a fault (R160). ST, FCAUSE and FINFO are written and nothing else changes (R161). -/
def State.raise (s : State) (f : CoreFault) (info : InfoWord) : State :=
  { s with st := .faulted, fcause := (Config.faultCode f), finfo := info }

/-- The value a stack push leaves in `x[7]`, and the byte address it stores to (R130, R136). -/
def State.pushAddr (s : State) : Byte := s.sp - 1

/-- The pre-decrement test of PUSH and CALL: StackOverflow(0) when `x[7] = 0` (R130, R155). -/
def withStackRoom (s : State) (k : Result) : Result :=
  if s.sp = 0 then .next (s.raise .stackOverflow 0) else k

/-- The post-increment test of POP and RET on the stack pointer value to be incremented: StackUnderflow(255) when it is
255 (R130, R156). -/
def withStackTop (s : State) (top : Byte) (k : Result) : Result :=
  if top = 255 then .next (s.raise .stackUnderflow 255) else k

/-- A CALL's return address, the address after the 2-byte CALL (R133), as an unbounded number (R10). -/
def State.returnAddr (s : State) : Nat := s.pc.toNat + 2

/-- The return-address test of CALL: AddressError when it exceeds 255 (R133, R153). -/
def withReturnAddr (s : State) (k : Byte → Result) : Result :=
  if Config.memSize ≤ s.returnAddr then .next (s.raise .addressError (BitVec.ofNat 16 s.returnAddr))
  else k (BitVec.ofNat _ s.returnAddr)

end Sys2Proof.Machine
end

