-- ==== Sys2Proof/Machine/Operands.lean ====
section
/-! DEFINITION. The operand forms (30_encoding.md R73 to R75): a register index in a whole byte, tested against 0..7, and
the immediate byte used as it stands (which needs no operation). -/

namespace Sys2Proof.Machine

/-- The operand byte that names a register. -/
def regByte (r : RegIdx) : Byte := BitVec.ofNat _ r.val

/-- The register an operand byte names: its whole value, no masking (R22, R74). -/
def regOperand (b : Byte) : Option RegIdx :=
  if h : b.toNat < Config.nReg then some ⟨b.toNat, h⟩ else none

/-- A handler's use of a register operand: RegisterIndexError with the byte as information when it names no register
(R22, R154), else the rest of the handler with that register. -/
def withReg (b : Byte) (s : State) (k : RegIdx → Result) : Result :=
  match regOperand b with
  | some r => k r
  | none => .next (s.raise .registerIndexError (b.setWidth 16))

/-- The two register operands of format RR, the first tested first (R154, R159). -/
def withRegs (a b : Byte) (s : State) (k : RegIdx → RegIdx → Result) : Result :=
  withReg a s fun ra => withReg b s fun rb => k ra rb

end Sys2Proof.Machine
end

