-- ==== Sys2Proof/Machine/Flags.lean ====
section
/-! DEFINITION. The ALU (42_alu.md R110): a closed set of three stateless operations. Its only flag computation is
`compare` (R115). No handler can select a fourth operation, so UnsupportedOperation is never raised (R116). -/

namespace Sys2Proof.Machine

/-- `compare(u, v)`: the unsigned order of two bytes, exactly one flag true (R115). -/
def compareBytes (u v : Byte) : Flags :=
  { l := decide (u.toNat < v.toNat), g := decide (v.toNat < u.toNat), e := decide (u.toNat = v.toNat) }

/-- An exact result as a register value, under an overflow policy (R114). -/
def narrow : OverflowPolicy → Nat → RegWord
  | .wrap, n => BitVec.ofNat _ (n % 2 ^ Config.xlen)
  | .saturate, n => BitVec.ofNat _ (min n (2 ^ Config.xlen - 1))

/-- The sum: computed exactly, then narrowed under OVERFLOW_POLICY (R7, R114). -/
def addBytes (u v : Byte) : Byte := narrow Config.overflowPolicy (u.toNat + v.toNat)

/-- The exact product, 0..65025, as a 16-bit value (R111, R114). -/
def mulBytes (u v : Byte) : OutWord := BitVec.ofNat _ (u.toNat * v.toNat)

/-- `ALU.add(reg_a, reg_b)`: writes `x[reg_a]`, no flag (R110, R112). -/
def State.aluAdd (s : State) (ra rb : RegIdx) : State := s.setReg ra (addBytes (s.reg ra) (s.reg rb))

/-- `ALU.compare(reg_a, reg_b)`: writes the three flags, no register (R110, R113). -/
def State.aluCompare (s : State) (ra rb : RegIdx) : State := s.setFlags (compareBytes (s.reg ra) (s.reg rb))

/-- `ALU.mul(reg_a, reg_b)`: writes nothing and returns the product to the MUL handler (R110, R111). -/
def State.aluMul (s : State) (ra rb : RegIdx) : OutWord := mulBytes (s.reg ra) (s.reg rb)

/-- MUL_WRITEBACK: what MUL does to its first register. With the spec's value nothing (R7, R111, D4); with the other value,
which the spec does not take, it would hold the narrowed product (log entry 9). -/
def State.writeBackProduct (s : State) (ra : RegIdx) (p : OutWord) : State :=
  if Config.mulWriteback then s.setReg ra (narrow Config.overflowPolicy p.toNat) else s

end Sys2Proof.Machine
end

