-- ==== Sys2Proof/Machine/Alu.lean ====
section
/-! DEFINITION. The meanings of MUL, ADD and CMP (42_alu.md). -/

namespace Sys2Proof.Machine

/-- MUL (R111): emit the exact product; no register, no flag; `pc <- pc + 3`. -/
def execMul (a b : Byte) (s : State) : Host.Outcome State Fault Refusal :=
  withRegs a b s fun ra rb => .next (((s.writeBackProduct ra (s.aluMul ra rb)).emit (s.aluMul ra rb)).advance 3)

/-- ADD (R112): `x[a] <- (x[a] + x[b]) mod 256`; no flag; `pc <- pc + 3`. -/
def execAdd (a b : Byte) (s : State) : Host.Outcome State Fault Refusal :=
  withRegs a b s fun ra rb => .next ((s.aluAdd ra rb).advance 3)

/-- CMP (R113): the three flags from the unsigned comparison; no register; `pc <- pc + 3`. -/
def execCmp (a b : Byte) (s : State) : Host.Outcome State Fault Refusal :=
  withRegs a b s fun ra rb => .next ((s.aluCompare ra rb).advance 3)

end Sys2Proof.Machine
end

