-- ==== Sys2Proof/Machine/Halt.lean ====
section
/-! DEFINITION. The meaning of HLT (45_halt.md), the only instruction of a system kind (R141). -/

namespace Sys2Proof.Machine

/-- HLT (R140): `pc <- pc + 1`, then ST <- HALTED. It cannot fault. -/
def execHlt (s : State) : Host.Outcome State Fault Refusal :=
  .next { s.advance 1 with st := .halted }

end Sys2Proof.Machine
end

