-- ==== Sys2Proof/Machine/Jump.lean ====
section
/-! DEFINITION. The meanings of JMP, JEQ and JNE (43_jumps.md). The register operand is tested whether or not the jump is
taken (R123). -/

namespace Sys2Proof.Machine

/-- JMP (R120): `pc <- x[a]`. -/
def execJmp (a : Byte) (s : State) : Host.Outcome State Fault Refusal :=
  withReg a s fun r => .next (s.setPc (targetOf (s.reg r)))

/-- JEQ (R121): `pc <- x[a]` if FL.E is 1, else `pc <- pc + 2`. -/
def execJeq (a : Byte) (s : State) : Host.Outcome State Fault Refusal :=
  withReg a s fun r => .next (if s.flags.e then s.setPc (targetOf (s.reg r)) else s.advance 2)

/-- JNE (R122): `pc <- x[a]` if FL.E is 0, else `pc <- pc + 2`. -/
def execJne (a : Byte) (s : State) : Host.Outcome State Fault Refusal :=
  withReg a s fun r => .next (if s.flags.e then s.advance 2 else s.setPc (targetOf (s.reg r)))

end Sys2Proof.Machine
end

