-- ==== Sys2Proof/Machine/LoadOutput.lean ====
section
/-! DEFINITION. The meanings of LDI and PRN (41_load_and_output.md). A meaning is the rule's Operation block alone: `step`
tests ST and fetches (log entry 4). -/

namespace Sys2Proof.Machine

/-- LDI (R100): `x[a] <- b; pc <- pc + 3`. -/
def execLdi (a imm : Byte) (s : State) : Host.Outcome State Fault Refusal :=
  withReg a s fun r => .next ((s.setReg r imm).advance 3)

/-- PRN (R101): `Emit(zext_16(x[a])); pc <- pc + 2`. -/
def execPrn (a : Byte) (s : State) : Host.Outcome State Fault Refusal :=
  withReg a s fun r => .next ((s.emit ((s.reg r).setWidth _)).advance 2)

end Sys2Proof.Machine
end

