-- ==== Sys2Proof/Machine/Stack.lean ====
section
/-! DEFINITION. The meanings of PUSH, POP, CALL and RET (44_stack_and_call.md): a full-descending stack through `x[7]`
(R130). All tests come before the first write (R161); after them the steps are in the order each rule writes them, which
fixes what an explicit operand of 7 does. -/

namespace Sys2Proof.Machine

/-- PUSH (R131): decrement `x[7]`, then store `x[a]`, read after the decrement, at the decremented `x[7]` (`pushAddr`); `pc <- pc + 2`. -/
def execPush (a : Byte) (s : State) : Host.Outcome State Fault Refusal :=
  withReg a s fun r =>
    withStackRoom s <|
      let s1 := s.setSp s.pushAddr
      .next ((s1.store s.pushAddr (s1.reg r)).advance 2)

/-- The stack pointer POP increments: the popped byte if the destination is register 7, else `x[7]` (R132). -/
def popTop (s : State) (r : RegIdx) : Byte :=
  if r = Config.spIndex then s.load s.sp else s.sp

/-- POP (R132): `x[a] <- MEM[x[7]]`, then `x[7] <- s + 1`; `pc <- pc + 2`. -/
def execPop (a : Byte) (s : State) : Host.Outcome State Fault Refusal :=
  withReg a s fun r =>
    withStackTop s (popTop s r) <|
      .next (((s.setReg r (s.load s.sp)).setSp (popTop s r + 1)).advance 2)

/-- CALL (R133): decrement `x[7]`, store the return address there, `pc <- x[a]`, read after the decrement. -/
def execCall (a : Byte) (s : State) : Host.Outcome State Fault Refusal :=
  withReg a s fun r =>
    withStackRoom s <|
      withReturnAddr s fun ret =>
        let s1 := s.setSp s.pushAddr
        .next ((s1.store s.pushAddr ret).setPc (targetOf (s1.reg r)))

/-- RET (R134): `pc <- MEM[x[7]]`, then `x[7] <- x[7] + 1`. -/
def execRet (s : State) : Host.Outcome State Fault Refusal :=
  withStackTop s s.sp <|
    .next ((s.setPc (targetOf (s.load s.sp))).setSp (s.sp + 1))

end Sys2Proof.Machine
end

