-- ==== Sys2Proof/WellFormed.lean ====
section
/-! DEFINITION. When an instruction is well formed: every byte in a register position is a register index 0..7
(30_encoding.md R74). An instruction that is not still decodes (R81); its handler takes RegisterIndexError. -/

namespace Sys2Proof

/-- The first operand byte in a register position that is no register index, first operand first (R154, R159). -/
def Instr.badRegOperand (i : Instr) : Option Byte :=
  i.regOperands.find? fun b => decide (Config.nReg ≤ b.toNat)

/-- Every register operand is 0..7 (R74). -/
def Instr.wellFormed (i : Instr) : Bool :=
  i.regOperands.all fun b => decide (b.toNat < Config.nReg)

end Sys2Proof
end

