-- ==== Sys2Proof/Decode.lean ====
section
/-! DEFINITION. The instruction encoding (30_encoding.md): the table of formats and the default opcode bytes, the decoder,
and the encoder. Both are written for an arbitrary `OPC` (R78, D1). -/

namespace Sys2Proof

/-- The mnemonics in the order of R77. -/
def Mnemonic.all : List Mnemonic :=
  [.ldi, .prn, .mul, .add, .cmp, .jmp, .jeq, .jne, .push, .pop, .call, .ret, .hlt]

/-- The format column of R77. -/
def Mnemonic.format : Mnemonic → Format
  | .ldi => .ri
  | .prn => .r
  | .mul => .rr
  | .add => .rr
  | .cmp => .rr
  | .jmp => .r
  | .jeq => .r
  | .jne => .r
  | .push => .r
  | .pop => .r
  | .call => .r
  | .ret => .z
  | .hlt => .z

/-- The number of operand bytes of a format (R72). -/
def Format.arity : Format → Nat
  | .z => 0
  | .r => 1
  | .rr => 2
  | .ri => 2

/-- The arity column of R77. It is looked up, never read from the opcode's bits (R71). -/
def Mnemonic.arity (m : Mnemonic) : Nat := m.format.arity

/-- The length in bytes: `1 + arity` (R70, R85). -/
def Mnemonic.length (m : Mnemonic) : Nat := 1 + m.arity

/-- The length of an instruction in bytes (R70). -/
def Instr.length (i : Instr) : Nat := i.mnemonic.length

/-- The length of the longest instruction (R70). -/
def maxInstrLength : Nat := 3

/-- The default of `OPC` (R78). PRESUMED (the spec takes the values from general knowledge, D1), log entry 1: unsafe. -/
def opcDefault : OpcodeMap
  | .ldi => 0b10000010
  | .prn => 0b01000111
  | .mul => 0b10100010
  | .add => 0b10100000
  | .cmp => 0b10100111
  | .jmp => 0b01010100
  | .jeq => 0b01010101
  | .jne => 0b01010110
  | .push => 0b01000101
  | .pop => 0b01000110
  | .call => 0b01010000
  | .ret => 0b00010001
  | .hlt => 0b00000001

/-- Why bytes hold no instruction. -/
inductive DecodeError where
  /-- The opcode byte is no value of `OPC` (R80). -/
  | illegalOpcode (opc : Byte)
  /-- The bytes end before the byte at this offset from the opcode's address (R91, R92). -/
  | missingByte (offset : Nat)
  deriving DecidableEq, Repr

/-- `Decode(opc)`: the one mnemonic whose `OPC` value is the opcode byte, or nothing (R79). -/
def decodeOpcode (o : OpcodeMap) (opc : Byte) : Option Mnemonic :=
  Mnemonic.all.find? fun m => o m == opc

/-- Read one operand byte (formats R). -/
def takeOne (mk : Byte → Instr) : List Byte → Except DecodeError (Instr × List Byte)
  | a :: rest => .ok (mk a, rest)
  | [] => .error (.missingByte 1)

/-- Read two operand bytes, the first operand at the lower address (formats RR, RI; R54, R73). -/
def takeTwo (mk : Byte → Byte → Instr) : List Byte → Except DecodeError (Instr × List Byte)
  | a :: b :: rest => .ok (mk a b, rest)
  | [_] => .error (.missingByte 2)
  | [] => .error (.missingByte 1)

/-- Read the operand bytes the mnemonic's format has (R72). -/
def decodeOperands : Mnemonic → List Byte → Except DecodeError (Instr × List Byte)
  | .ldi, bs => takeTwo .ldi bs
  | .prn, bs => takeOne .prn bs
  | .mul, bs => takeTwo .mul bs
  | .add, bs => takeTwo .add bs
  | .cmp, bs => takeTwo .cmp bs
  | .jmp, bs => takeOne .jmp bs
  | .jeq, bs => takeOne .jeq bs
  | .jne, bs => takeOne .jne bs
  | .push, bs => takeOne .push bs
  | .pop, bs => takeOne .pop bs
  | .call, bs => takeOne .call bs
  | .ret, bs => .ok (.ret, bs)
  | .hlt, bs => .ok (.hlt, bs)

/-- The decoder: the instruction at the head of the bytes and the bytes after it, or the name of what is wrong. An
illegal opcode is rejected whatever follows it (R80). -/
def decode (o : OpcodeMap) : List Byte → Except DecodeError (Instr × List Byte)
  | [] => .error (.missingByte 0)
  | opc :: rest =>
    match decodeOpcode o opc with
    | none => .error (.illegalOpcode opc)
    | some m => decodeOperands m rest

/-- The operand bytes of an instruction in encoding order (R72, R73). -/
def Instr.operands : Instr → List Byte
  | .ldi a imm => [a, imm]
  | .prn a => [a]
  | .mul a b => [a, b]
  | .add a b => [a, b]
  | .cmp a b => [a, b]
  | .jmp a => [a]
  | .jeq a => [a]
  | .jne a => [a]
  | .push a => [a]
  | .pop a => [a]
  | .call a => [a]
  | .ret => []
  | .hlt => []

/-- The encoder: the opcode byte, then the operand bytes, at ascending addresses (R54, R70, R72). -/
def encode (o : OpcodeMap) (i : Instr) : List Byte := o i.mnemonic :: i.operands

/-- The bytes of a word numbered as the opcode table numbers it: the first byte in bits 7..0, the next above it. Bits
above `nbits` are zero, up to the longest instruction. -/
def wordBytes (nbits w : Nat) : List Byte :=
  (List.range maxInstrLength).map fun k => BitVec.ofNat _ ((w % 2 ^ nbits) >>> (8 * k))

/-- The instruction the decoder reads, under the default `OPC`, from a word of `nbits` bits (R85). -/
def decodeTableWord (nbits w : Nat) : Option Instr :=
  match decode opcDefault (wordBytes nbits w) with
  | .ok (i, _) => some i
  | .error _ => none

end Sys2Proof
end

