-- ==== Sys2Proof/Machine/Fetch.lean ====
section
/-! DEFINITION. Fetching and decoding the instruction at the program counter (40_dispatch.md R90 to R92), and placing
instruction bytes where the next fetch reads them. -/

namespace Sys2Proof.Machine

/-- The bytes of Memory at `a`, `a + 1`, `a + 2`, as far as these are addresses 0..255 (R52, R56). -/
def Memory.window (m : Memory) (a : Nat) : List Byte :=
  (((List.range maxInstrLength).map (a + ·)).filter fun k => decide (k < Config.memSize)).map m.read

/-- The instruction bytes a fetch can see (R90). Reading a byte has no effect, so looking at the bytes of an instruction
that then faults differs from R80 and R92 in nothing. DEDUCED, log entry 6: safe. -/
def State.window (s : State) : List Byte := s.mem.window s.pc.toNat

/-- The fault a fetch takes for bytes that hold no instruction, with its information: IllegalInstruction(opc) (R152), or
AddressError with the first address that is out of range (R91, R92, R153). -/
def fetchFault (s : State) : DecodeError → CoreFault × InfoWord
  | .illegalOpcode opc => (.illegalInstruction, opc.setWidth 16)
  | .missingByte k => (.addressError, BitVec.ofNat 16 (s.pc.toNat + k))

/-- Steps 1 and 2 and the operand fetch of R90: the instruction at `pc`, or the fault to take. -/
def fetch (o : OpcodeMap) (s : State) : Except (CoreFault × InfoWord) Instr :=
  match decode o s.window with
  | .ok (i, _) => .ok i
  | .error e => .error (fetchFault s e)

/-- The program counter at which three bytes fit: `pc` itself, or 0 when `pc` is too close to the top of Memory. -/
def State.fetchRoomPc (s : State) : PcWord :=
  if s.pc.toNat + maxInstrLength ≤ Config.memSize then s.pc else 0

/-- The state with bytes placed where its next step fetches: RUNNING, at a `pc` with room for the longest instruction. -/
def State.placeAtFetch (s : State) (bytes : List Byte) : State :=
  { s with
    st := .running
    pc := s.fetchRoomPc
    mem := s.mem.writeBytes s.fetchRoomPc.toNat bytes }

end Sys2Proof.Machine
end

