-- ==== Sys2Proof/Machine/Step.lean ====
section
/-! DEFINITION. One step of the core (40_dispatch.md R90, R95): exactly one instruction, or exactly one fault. -/

namespace Sys2Proof.Machine

/-- `Step()` under an opcode map. It exists only when ST = RUNNING (R95); the fetch's fault is taken (R160), else exactly
one handler runs (R93). -/
def stepWith (o : OpcodeMap) (s : State) : Result :=
  match s.st with
  | .halted => .fault .halted
  | .faulted => .fault .faulted
  | .running =>
    match fetch o s with
    | .ok i => exec i s
    | .error (f, info) => .next (s.raise f info)

/-- `Step()` under the default `OPC` (R78). -/
def step (s : State) : Host.Outcome State Fault Refusal := stepWith opcDefault s

/-- `s` with an instruction word's bytes stored where `step` fetches next (log entry 5). -/
def State.withFetchWord (s : State) (nbits w : Nat) : State := s.placeAtFetch (wordBytes nbits w)

end Sys2Proof.Machine
end

