-- ==== Sys2Proof/Machine/Interface.lean ====
section
/-! DEFINITION. The host's two interfaces (00_scope.md R14): Reset and load, which makes the launch state
(70_reset_and_hazards.md R180, R183), and Status, through which the host observes the core (60_exceptions.md R160). -/

namespace Sys2Proof.Machine

/-- The launch state from `SP_INIT` and an image: the reset values, with the image at address 0 upward and every other
cell 0 (R180, R183). An image longer than Memory has no launch state (R58). -/
def State.launch (spInit : RegWord) (image : List Byte) : Option State :=
  if image.length ≤ Config.memSize then
    some { State.resetWith spInit with mem := Memory.writeBytes [] 0 image }
  else none

/-- The encoding of ST on the status interface (R34). -/
def RunState.code : RunState → BitVec 2
  | .running => 0
  | .halted => 1
  | .faulted => 2

/-- The flags as the status byte FL: `FL[2] = L`, `FL[1] = G`, `FL[0] = E`, `FL[7:3] = 0` (R33). PRESUMED (the spec takes
the layout from general knowledge), log entry 7: no instruction can see it. -/
def Flags.byte (f : Flags) : Byte :=
  BitVec.ofNat 8 (4 * f.l.toNat + 2 * f.g.toNat + f.e.toNat)

/-- What the host may observe at any time: ST, FCAUSE, FINFO (R14). -/
structure Status where
  st : BitVec 2
  fcause : CauseWord
  finfo : InfoWord
  deriving DecidableEq, Repr

/-- The status interface (R14, R160). -/
def State.status (s : State) : Status :=
  { st := s.st.code, fcause := s.fcause, finfo := s.finfo }

/-- All other state, which the host may observe only after the run has ended (R14, R183). The form is a DESIGN CHOICE, log
entry 10. -/
def State.finalView (s : State) : Option State :=
  match s.st with
  | .running => none
  | .halted => some s
  | .faulted => some s

end Sys2Proof.Machine
end

