-- ==== Sys2Proof/Safety.lean ====
section
/-! DEFINITION. The terms the statements use: the state invariant, the ends of a run (00_scope.md R17), what each
instruction may write (10_state.md R20; 20_memory.md R56), the order of the fault tests (60_exceptions.md R159), and short
instruction sequences. -/

namespace Sys2Proof.Machine

/-- A final state: the good end of a run (R17). -/
def State.Final (s : State) : Prop := s.st = .halted

/-- A terminal state: no step exists in it (R34, R95). FAULTED is terminal and never final. -/
def State.Terminal (s : State) : Prop := s.st ≠ .running

/-- At most one flag is set: the flag states 000, 100, 010, 001 of R32. -/
def Flags.AtMostOne (f : Flags) : Prop := f.l.toNat + f.g.toNat + f.e.toNat ≤ 1

/-- FCAUSE and FINFO are 0 until a fault is taken, and then one of the rows of R151 that a run can reach (R35, R116). -/
def State.FaultRegsConsistent (s : State) : Prop :=
  (s.st ≠ .faulted → s.fcause = 0 ∧ s.finfo = 0) ∧
  (s.st = .faulted →
    (s.fcause = 1 ∧ s.finfo.toNat ≤ 255) ∨
    (s.fcause = 2 ∧ s.finfo.toNat = 256) ∨
    (s.fcause = 3 ∧ 8 ≤ s.finfo.toNat ∧ s.finfo.toNat ≤ 255) ∨
    (s.fcause = 4 ∧ s.finfo.toNat = 0) ∨
    (s.fcause = 5 ∧ s.finfo.toNat = 255))

/-- The invariant of the core: what R26, R32, R35, R36 and R37 say of every reachable state. -/
structure State.Inv (s : State) : Prop where
  pcRange : s.pc.toNat ≤ 256
  memCanonical : s.mem.wf = true
  flagsLegal : s.flags.AtMostOne
  faultRegs : s.FaultRegsConsistent
  outRange : ∀ v ∈ s.out, v.toNat ≤ 65025

end Sys2Proof.Machine

namespace Sys2Proof

open Machine

/-- The registers an instruction may write: its destination, and register 7 for the stack instructions (R20). -/
def Instr.mayWriteReg : Instr → RegIdx → Bool
  | .ldi a _, r => regOperand a == some r
  | .add a _, r => regOperand a == some r
  | .pop a, r => regOperand a == some r || r == Config.spIndex
  | .push _, r => r == Config.spIndex
  | .call _, r => r == Config.spIndex
  | .ret, r => r == Config.spIndex
  | .prn _, _ => false
  | .mul _ _, _ => false
  | .cmp _ _, _ => false
  | .jmp _, _ => false
  | .jeq _, _ => false
  | .jne _, _ => false
  | .hlt, _ => false

/-- The byte address an instruction stores to, computed as its meaning computes it (R36, R56): PUSH and CALL alone. -/
def Instr.storeAddr : Instr → State → Option Byte
  | .push _, s => some s.pushAddr
  | .call _, s => some s.pushAddr
  | .ldi _ _, _ => none
  | .prn _, _ => none
  | .mul _ _, _ => none
  | .add _ _, _ => none
  | .cmp _ _, _ => none
  | .jmp _, _ => none
  | .jeq _, _ => none
  | .jne _, _ => none
  | .pop _, _ => none
  | .ret, _ => none
  | .hlt, _ => none

/-- The instructions that may set `pc` to a new address (R27, R94). -/
def Instr.isTransfer : Instr → Bool
  | .jmp _ => true
  | .jeq _ => true
  | .jne _ => true
  | .call _ => true
  | .ret => true
  | .ldi _ _ => false
  | .prn _ => false
  | .mul _ _ => false
  | .add _ _ => false
  | .cmp _ _ => false
  | .push _ => false
  | .pop _ => false
  | .hlt => false

/-- The stack fault and return-address fault of an instruction whose register operands are legal: tests 7 and 8 of R159,
written from the conditions of R131 to R134. -/
def Instr.stackFault : Instr → State → Option (CoreFault × InfoWord)
  | .push _, s => if s.reg 7 = 0 then some (.stackOverflow, 0) else none
  | .call _, s =>
    if s.reg 7 = 0 then some (.stackOverflow, 0)
    else if 255 < s.pc.toNat + 2 then some (.addressError, BitVec.ofNat 16 (s.pc.toNat + 2))
    else none
  | .pop a, s =>
    if (if a = 7 then s.mem.read (s.reg 7).toNat else s.reg 7) = 255 then some (.stackUnderflow, 255) else none
  | .ret, s => if s.reg 7 = 255 then some (.stackUnderflow, 255) else none
  | .ldi _ _, _ => none
  | .prn _, _ => none
  | .mul _ _, _ => none
  | .add _ _, _ => none
  | .cmp _ _, _ => none
  | .jmp _, _ => none
  | .jeq _, _ => none
  | .jne _, _ => none
  | .hlt, _ => none

/-- The instruction a mnemonic and two operand bytes make; a byte the format lacks is ignored (R72). -/
def Instr.ofBytes : Mnemonic → Byte → Byte → Instr
  | .ldi, a, b => .ldi a b
  | .prn, a, _ => .prn a
  | .mul, a, b => .mul a b
  | .add, a, b => .add a b
  | .cmp, a, b => .cmp a b
  | .jmp, a, _ => .jmp a
  | .jeq, a, _ => .jeq a
  | .jne, a, _ => .jne a
  | .push, a, _ => .push a
  | .pop, a, _ => .pop a
  | .call, a, _ => .call a
  | .ret, _, _ => .ret
  | .hlt, _, _ => .hlt

end Sys2Proof

namespace Sys2Proof.Machine

/-- The eight tests of R159 in their order, on the bytes of Memory at `pc`, `pc + 1`, `pc + 2`: the fault the step takes,
or none. `m` is the mnemonic of the opcode byte, where it has one (R79). -/
def firstFault (s : State) (m : Option Mnemonic) : Option (CoreFault × InfoWord) :=
  if 255 < s.pc.toNat then some (.addressError, BitVec.ofNat 16 s.pc.toNat)
  else match m with
    | none => some (.illegalInstruction, (s.mem.read s.pc.toNat).setWidth 16)
    | some m =>
      if 1 ≤ m.arity ∧ 255 < s.pc.toNat + 1 then some (.addressError, BitVec.ofNat 16 (s.pc.toNat + 1))
      else if m.arity = 2 ∧ 255 < s.pc.toNat + 2 then some (.addressError, BitVec.ofNat 16 (s.pc.toNat + 2))
      else
        let i := Instr.ofBytes m (s.mem.read (s.pc.toNat + 1)) (s.mem.read (s.pc.toNat + 2))
        match i.badRegOperand with
        | some b => some (.registerIndexError, b.setWidth 16)
        | none => i.stackFault s

/-- The instructions of a list executed one after the other, while each gives a next state. -/
def execAll : List Instr → State → Result
  | [], s => .next s
  | i :: is, s =>
    match exec i s with
    | .next t => execAll is t
    | .fault f => .fault f
    | .refused r => .refused r

/-- The program counter after each instruction of a list. -/
def pcTrace : List Instr → State → List PcWord
  | [], _ => []
  | i :: is, s =>
    match exec i s with
    | .next t => t.pc :: pcTrace is t
    | .fault _ => []
    | .refused _ => []

/-- The addresses at which the instructions of a list are executed. -/
def pcsOf (is : List Instr) (s : State) : List PcWord := (s.pc :: pcTrace is s).take is.length

end Sys2Proof.Machine
end

