-- ==== Sys2Proof/Certificates/Slice0/Obligations.lean ====
section
/-! DEFINITION. The statements for the provers. `s.raise f info` is the spec's `raise F(info)` (60_exceptions.md R160),
spelled out field by field in `FaultsArePreciseAndCoded`; `regByte r` is the operand byte whose value is the register
index `r`; an operand byte is one of these or is above 7. Where a statement rests on a decision the spec marks as its own
(D<n> of 92_eei_decisions.md) or on an inference the spec marks as derived, its docstring says so. -/

open Sys2Proof Sys2Proof.Machine

/-! ### Encoding -/

/-- For every `OPC` the spec admits (R8), decoding an encoded instruction gives it back with the bytes after it: no bit of
an operand is dropped, whatever its value (R54, R72 to R75, R79). The layout of the bytes is the spec's decision D15. -/
def Obligations.DecodeOfEncodeIsIdentity : Prop :=
  ∀ o : OpcodeMap, o.Admissible → ∀ (i : Instr) (rest : List Byte), decode o (encode o i ++ rest) = .ok (i, rest)

/-- The other direction, for every opcode map: bytes that decode are the encoding of what they decode to, then the rest
(R54, R72, D15). -/
def Obligations.EncodeOfDecodeIsIdentity : Prop :=
  ∀ (o : OpcodeMap) (bytes rest : List Byte) (i : Instr), decode o bytes = .ok (i, rest) → bytes = encode o i ++ rest

/-- The opcode byte, looked up in the table, fixes how many operand bytes follow it (R70, R71), by the arities of R77; that
many are consumed, and where they are not there the first missing one is named (R92, which the spec derives, in the form of
the model's own DecodeError: log entry 6, DEDUCED). -/
def Obligations.OpcodeFixesLength : Prop :=
  Mnemonic.all.map Mnemonic.arity = [2, 1, 2, 2, 2, 1, 1, 1, 1, 1, 1, 0, 0] ∧
  ∀ o : OpcodeMap, o.Admissible → ∀ (m : Mnemonic) (rest : List Byte),
    (m.arity ≤ rest.length →
      ∃ i : Instr, i.mnemonic = m ∧ i.operands = rest.take m.arity ∧ i.length = 1 + m.arity ∧
        decode o (o m :: rest) = .ok (i, rest.drop m.arity)) ∧
    (rest.length < m.arity → decode o (o m :: rest) = .error (.missingByte (rest.length + 1)))

/-- R80: every opcode byte that is no value of `OPC` is illegal, whatever follows it and also where no operand byte could
be read; there are 243 of them under every `OPC`, and 0x00 is one. -/
def Obligations.OtherOpcodesAreIllegal : Prop :=
  ∀ o : OpcodeMap, o.Admissible →
    (∀ b : Byte, (∀ m, o m ≠ b) →
      (∀ rest, decode o (b :: rest) = .error (.illegalOpcode b)) ∧
      ∀ s : State, s.st = .running → s.pc.toNat ≤ 255 → s.mem.read s.pc.toNat = b →
        stepWith o s = .next (s.raise .illegalInstruction (b.setWidth 16))) ∧
    ((List.range 256).filter fun n => decide (∀ m ∈ Mnemonic.all, o m ≠ BitVec.ofNat 8 n)).length = 243 ∧
    ∀ rest, decode o (0 :: rest) = .error (.illegalOpcode 0)

/-- Sanity: words written out from the spec's encodings (R72) with the default opcode bytes (R78, which the spec takes from
general knowledge: log entry 1) decode to the instructions they stand for. -/
def Obligations.SpecWordsDecode : Prop :=
  decode opcDefault [0b10000010, 0b00000111, 0b11110000] = .ok (.ldi 7 240, []) ∧
  decode opcDefault [0b10100111, 0b00000000, 0b00000010] = .ok (.cmp 0 2, []) ∧
  decode opcDefault [0b01010110, 0b00000011, 0b00000001] = .ok (.jne 3, [1]) ∧
  decode opcDefault [0b01010000, 0b00000001] = .ok (.call 1, []) ∧
  decode opcDefault [0b00000001] = .ok (.hlt, [])

/-! ### Reset and launch -/

/-- The launch state (R41, R180, R183), every field: the registers, the image at address 0 upward and zero beyond it; an
image longer than Memory has no launch state (R58). The state after reset is the launch state of the empty image with the
default of the OPEN parameter `SP_INIT` (log entry 2). The reset values of flags, fault registers and OUT and the limits
of the image are the spec's decisions D3, D5, D6, D7, D19. -/
def Obligations.LaunchStateHoldsImage : Prop :=
  State.launch 0 [] = some State.reset ∧
  ∀ (spInit : Byte) (image : List Byte),
    (image.length ≤ 256 → ∃ s, State.launch spInit image = some s ∧
      (∀ r : RegIdx, r ≠ 7 → s.reg r = 0) ∧ s.reg 7 = spInit ∧ s.pc = 0 ∧
      s.flags = { l := false, g := false, e := false } ∧ s.st = .running ∧ s.fcause = 0 ∧ s.finfo = 0 ∧ s.out = [] ∧
      ∀ a, a < 256 → s.mem.read a = image.getD a 0) ∧
    (256 < image.length → State.launch spInit image = none)

/-- The empty image (R152, R182): for every `OPC` the spec admits and every `SP_INIT`, the first step raises
IllegalInstruction with information 0, at `pc = 0`. -/
def Obligations.EmptyImageRaisesIllegalInstruction : Prop :=
  ∀ (o : OpcodeMap) (spInit : Byte), o.Admissible →
    ∃ s t, State.launch spInit [] = some s ∧ stepWith o s = .next t ∧
      t = s.raise .illegalInstruction 0 ∧ t.pc = 0

/-! ### The invariant -/

/-- The invariant holds at reset and in every launch state (R23, R26, R32, R35, R36). -/
def Obligations.ResetAndLaunchMeetInvariant : Prop :=
  State.reset.Inv ∧ ∀ (spInit : Byte) (image : List Byte) (s : State), State.launch spInit image = some s → s.Inv

/-- Every step keeps the invariant: the program counter stays in 0..256 (R26), memory stays canonical inside 0..255 (R36),
at most one flag is set (R32), the fault registers are 0 until a fault and then a row of R151 (R35), every emitted value is
at most 65025 (R37). The rules rest on the spec's decisions D5, D6, D7, D10. -/
def Obligations.StepKeepsMachineState : Prop :=
  ∀ s t : State, s.Inv → step s = .next t → t.Inv

/-! ### The step -/

/-- A step runs the decoded instruction: in RUNNING, when the bytes at the program counter decode to `i`, the step is the
meaning of `i` at that very state, with nothing added (R90, R94: the handler alone writes `pc`). -/
def Obligations.StepRunsDecodedInstruction : Prop :=
  ∀ (s : State) (i : Instr) (rest : List Byte),
    s.st = .running → decode opcDefault s.window = .ok (i, rest) → step s = exec i s

/-- R93: exactly one handler runs, the one of the instruction whose bytes stand at the program counter when the step
begins, for every instruction, every place it fits in, and every `OPC` the spec admits. -/
def Obligations.StepRunsExactlyTheFetchedHandler : Prop :=
  ∀ (o : OpcodeMap) (s : State) (i : Instr), o.Admissible → s.st = .running →
    s.pc.toNat + i.length ≤ 256 →
    (∀ k (h : k < (encode o i).length), s.mem.read (s.pc.toNat + k) = (encode o i)[k]) →
    stepWith o s = exec i s

/-- R95: a step exists exactly in RUNNING, so nothing changes in HALTED and FAULTED; a JMP to its own address runs for
ever, and nothing stops it. -/
def Obligations.StepExistsExactlyWhenRunning : Prop :=
  (∀ (o : OpcodeMap) (s : State), (∃ t, stepWith o s = .next t) ↔ s.st = .running) ∧
  (∀ (s : State) (n : Nat) (t : State), s.Terminal → core.run (n + 1) s ≠ .next t) ∧
  ∀ (s : State) (r : RegIdx) (n : Nat), s.st = .running → fetch opcDefault s = .ok (.jmp (regByte r)) →
    (s.reg r).toNat = s.pc.toNat → core.run n s = .next s

/-- From RUNNING a step yields exactly one of three results (R96, which the spec derives): an instruction other than HLT
has run and the core is RUNNING; HLT has run and it is HALTED; or it is FAULTED and only ST, FCAUSE, FINFO changed. So HLT
is the only way to HALTED (R185). -/
def Obligations.StepHasThreeResults : Prop :=
  ∀ (o : OpcodeMap) (s : State), s.st = .running → ∃ t, stepWith o s = .next t ∧
    ((t.st = .running ∧ ∃ i, i ≠ .hlt ∧ fetch o s = .ok i ∧ exec i s = .next t) ∨
     (t.st = .halted ∧ fetch o s = .ok .hlt ∧ exec .hlt s = .next t) ∨
     (t.st = .faulted ∧ t = { s with st := .faulted, fcause := t.fcause, finfo := t.finfo }))

/-- Taking a fault (R151, R160, R161; the codes and the precision are the spec's decisions D7, D8): nothing changes but ST,
FCAUSE and FINFO, and these are a row of the table, with the condition that raises it: an opcode outside the table; a fetch
or a CALL's return address beyond 255; the first bad register operand; PUSH or CALL at `x[7] = 0`; RET or POP when the
pointer to be incremented is 255 (for POP R7 that is the popped byte, D14). -/
def Obligations.FaultsArePreciseAndCoded : Prop :=
  ∀ (o : OpcodeMap) (s t : State), s.pc.toNat ≤ 256 → stepWith o s = .next t → t.st = .faulted →
    t = { s with st := .faulted, fcause := t.fcause, finfo := t.finfo } ∧
    ((t.fcause = 1 ∧ s.pc.toNat ≤ 255 ∧ t.finfo.toNat = (s.mem.read s.pc.toNat).toNat ∧
        ∀ m, o m ≠ s.mem.read s.pc.toNat) ∨
     (t.fcause = 2 ∧ t.finfo.toNat = 256 ∧
        (s.pc.toNat = 256 ∨
         (∃ m, o m = s.mem.read s.pc.toNat ∧ s.pc.toNat ≤ 255 ∧ 256 < s.pc.toNat + m.length) ∨
         ∃ r : RegIdx, fetch o s = .ok (.call (regByte r)) ∧ s.reg 7 ≠ 0 ∧ s.pc.toNat + 2 = 256)) ∨
     (t.fcause = 3 ∧ 8 ≤ t.finfo.toNat ∧ t.finfo.toNat ≤ 255 ∧
        ∃ i b, fetch o s = .ok i ∧ i.badRegOperand = some b ∧ t.finfo.toNat = b.toNat) ∨
     (t.fcause = 4 ∧ t.finfo.toNat = 0 ∧ s.reg 7 = 0 ∧
        ∃ r : RegIdx, fetch o s = .ok (.push (regByte r)) ∨ fetch o s = .ok (.call (regByte r))) ∨
     (t.fcause = 5 ∧ t.finfo.toNat = 255 ∧
        ((fetch o s = .ok .ret ∧ s.reg 7 = 255) ∨
         ∃ r : RegIdx, fetch o s = .ok (.pop (regByte r)) ∧
           (if r = 7 then s.mem.read (s.reg 7).toNat else s.reg 7) = 255)))

/-- The order of the fault tests (R159, the spec's decision D9): the sequential list of tests, written on the bytes at the
program counter, names the fault every step takes; where it names none, the instruction takes effect. -/
def Obligations.FaultTestsHaveTheSpecsOrder : Prop :=
  ∀ (o : OpcodeMap) (s : State), s.st = .running →
    (∀ f info, firstFault s (decodeOpcode o (s.mem.read s.pc.toNat)) = some (f, info) →
      stepWith o s = .next (s.raise f info)) ∧
    (firstFault s (decodeOpcode o (s.mem.read s.pc.toNat)) = none →
      ∃ t, stepWith o s = .next t ∧ t.st ≠ .faulted)

/-- The AddressErrors of the fetch (R91, R92, R153; the spec derives R92 and R153): at `pc = 256`, for an instruction with
operands at 255, and for one with two operands at 254, always with information 256. -/
def Obligations.FetchBeyondMemoryRaisesAddressError : Prop :=
  ∀ (o : OpcodeMap) (s : State), o.Admissible → s.st = .running →
    (s.pc.toNat = 256 → stepWith o s = .next (s.raise .addressError 256)) ∧
    (s.pc.toNat = 255 → ∀ m : Mnemonic, s.mem.read 255 = o m → 1 ≤ m.arity →
      stepWith o s = .next (s.raise .addressError 256)) ∧
    (s.pc.toNat = 254 → ∀ m : Mnemonic, s.mem.read 254 = o m → m.arity = 2 →
      stepWith o s = .next (s.raise .addressError 256))

/-- UnsupportedOperation is raised by nothing (R116, R157, the spec's decision D20). -/
def Obligations.UnsupportedOperationIsNeverRaised : Prop :=
  ∀ (o : OpcodeMap) (s t : State), stepWith o s = .next t → t.fcause = 6 → s.fcause = 6

/-- The program counter after an instruction that took effect (R27, R28, R94): an instruction that is no transfer advances
by its length, without wrapping; a transfer goes to an address 0..255 or, not taken, advances. R28 is derived in the spec;
HLT's advance and the value 256 are its decisions D10, D11. -/
def Obligations.ProgramCounterAdvancesByLength : Prop :=
  ∀ (o : OpcodeMap) (s t : State) (i : Instr), fetch o s = .ok i → stepWith o s = .next t → t.st ≠ .faulted →
    s.pc.toNat + i.length ≤ 256 ∧
    (i.isTransfer = false → t.pc.toNat = s.pc.toNat + i.length) ∧
    (i.isTransfer = true → t.pc.toNat ≤ 255 ∨ t.pc.toNat = s.pc.toNat + i.length)

/-! ### The instructions -/

/-- R100: LDI for every register, every immediate and every bad operand byte, and its encoding under every `OPC`. -/
def Obligations.LdiLoadsImmediate : Prop :=
  ∀ (s : State) (imm : Byte),
    (∀ r : RegIdx,
      exec (.ldi (regByte r) imm) s = .next { s with regs := s.regs.set r imm, pc := s.pc + 3 }) ∧
    (∀ a : Byte, 7 < a.toNat → exec (.ldi a imm) s = .next (s.raise .registerIndexError (a.setWidth 16))) ∧
    ∀ (o : OpcodeMap) (a : Byte) (rest : List Byte), o.Admissible →
      decode o (o .ldi :: a :: imm :: rest) = .ok (.ldi a imm, rest)

/-- PRN emits the register's value, zero-extended (R101; the 16-bit output is the spec's decision D5). -/
def Obligations.PrnEmitsRegister : Prop :=
  ∀ s : State,
    (∀ r : RegIdx, ∃ v : OutWord, v.toNat = (s.reg r).toNat ∧
      exec (.prn (regByte r)) s = .next { s with out := s.out ++ [v], pc := s.pc + 2 }) ∧
    ∀ a : Byte, 7 < a.toNat → exec (.prn a) s = .next (s.raise .registerIndexError (a.setWidth 16))

/-- MUL emits the exact product and writes no register (R111, R114; the spec's decisions D4, D5). -/
def Obligations.MulEmitsExactProduct : Prop :=
  ∀ s : State,
    (∀ ra rb : RegIdx, ∃ v : OutWord, v.toNat = (s.reg ra).toNat * (s.reg rb).toNat ∧
      exec (.mul (regByte ra) (regByte rb)) s = .next { s with out := s.out ++ [v], pc := s.pc + 3 }) ∧
    (∀ a b : Byte, 7 < a.toNat → exec (.mul a b) s = .next (s.raise .registerIndexError (a.setWidth 16))) ∧
    ∀ (ra : RegIdx) (b : Byte), 7 < b.toNat →
      exec (.mul (regByte ra) b) s = .next (s.raise .registerIndexError (b.setWidth 16))

/-- ADD wraps modulo 256 and writes no flag (R112, R114; the wrap is the spec's decision D2). -/
def Obligations.AddWrapsModulo256 : Prop :=
  ∀ s : State,
    (∀ ra rb : RegIdx, ∃ v : Byte, v.toNat = ((s.reg ra).toNat + (s.reg rb).toNat) % 256 ∧
      exec (.add (regByte ra) (regByte rb)) s = .next { s with regs := s.regs.set ra v, pc := s.pc + 3 }) ∧
    (∀ a b : Byte, 7 < a.toNat → exec (.add a b) s = .next (s.raise .registerIndexError (a.setWidth 16))) ∧
    ∀ (ra : RegIdx) (b : Byte), 7 < b.toNat →
      exec (.add (regByte ra) b) s = .next (s.raise .registerIndexError (b.setWidth 16))

/-- R113: CMP writes the three flags from the unsigned order, exactly one of them 1, and nothing else; and its encoding
under every `OPC`. -/
def Obligations.CmpSetsExactlyOneFlag : Prop :=
  ∀ s : State,
    (∀ ra rb : RegIdx, ∃ f : Flags,
      (f.l = true ↔ (s.reg ra).toNat < (s.reg rb).toNat) ∧
      (f.g = true ↔ (s.reg rb).toNat < (s.reg ra).toNat) ∧
      (f.e = true ↔ s.reg ra = s.reg rb) ∧
      f.l.toNat + f.g.toNat + f.e.toNat = 1 ∧
      exec (.cmp (regByte ra) (regByte rb)) s = .next { s with flags := f, pc := s.pc + 3 }) ∧
    (∀ a b : Byte, 7 < a.toNat → exec (.cmp a b) s = .next (s.raise .registerIndexError (a.setWidth 16))) ∧
    (∀ (ra : RegIdx) (b : Byte), 7 < b.toNat →
      exec (.cmp (regByte ra) b) s = .next (s.raise .registerIndexError (b.setWidth 16))) ∧
    ∀ (o : OpcodeMap) (a b : Byte) (rest : List Byte), o.Admissible →
      decode o (o .cmp :: a :: b :: rest) = .ok (.cmp a b, rest)

/-- R120: JMP sets `pc` to the register's value and changes nothing else; and its encoding under every `OPC`. -/
def Obligations.JmpGoesToRegister : Prop :=
  ∀ s : State,
    (∀ r : RegIdx, ∃ p : PcWord, p.toNat = (s.reg r).toNat ∧
      exec (.jmp (regByte r)) s = .next { s with pc := p }) ∧
    (∀ a : Byte, 7 < a.toNat → exec (.jmp a) s = .next (s.raise .registerIndexError (a.setWidth 16))) ∧
    ∀ (o : OpcodeMap) (a : Byte) (rest : List Byte), o.Admissible →
      decode o (o .jmp :: a :: rest) = .ok (.jmp a, rest)

/-- R121: JEQ jumps when FL.E is 1, else advances by 2; a bad register operand faults whether or not the jump would be
taken; and its encoding under every `OPC`. -/
def Obligations.JeqJumpsWhenEqual : Prop :=
  ∀ s : State,
    (∀ r : RegIdx, s.flags.e = true → ∃ p : PcWord, p.toNat = (s.reg r).toNat ∧
      exec (.jeq (regByte r)) s = .next { s with pc := p }) ∧
    (∀ r : RegIdx, s.flags.e = false → exec (.jeq (regByte r)) s = .next { s with pc := s.pc + 2 }) ∧
    (∀ a : Byte, 7 < a.toNat → exec (.jeq a) s = .next (s.raise .registerIndexError (a.setWidth 16))) ∧
    ∀ (o : OpcodeMap) (a : Byte) (rest : List Byte), o.Admissible →
      decode o (o .jeq :: a :: rest) = .ok (.jeq a, rest)

/-- R122: JNE jumps when FL.E is 0, else advances by 2; a bad register operand faults whether or not the jump would be
taken; and its encoding under every `OPC`. -/
def Obligations.JneJumpsWhenNotEqual : Prop :=
  ∀ s : State,
    (∀ r : RegIdx, s.flags.e = false → ∃ p : PcWord, p.toNat = (s.reg r).toNat ∧
      exec (.jne (regByte r)) s = .next { s with pc := p }) ∧
    (∀ r : RegIdx, s.flags.e = true → exec (.jne (regByte r)) s = .next { s with pc := s.pc + 2 }) ∧
    (∀ a : Byte, 7 < a.toNat → exec (.jne a) s = .next (s.raise .registerIndexError (a.setWidth 16))) ∧
    ∀ (o : OpcodeMap) (a : Byte) (rest : List Byte), o.Admissible →
      decode o (o .jne :: a :: rest) = .ok (.jne a, rest)

/-- PUSH (R130, R131): it decrements `x[7]`, stores the register's value at the decremented address and at no other, and
changes nothing else; StackOverflow at `x[7] = 0`. With operand 7 the decremented pointer is stored (the spec's decision
D14); the name of the fault is its decision D12. -/
def Obligations.PushStoresBelowStackPointer : Prop :=
  ∀ s : State, s.mem.wf = true →
    (∀ r : RegIdx, s.reg 7 ≠ 0 → ∃ t, exec (.push (regByte r)) s = .next t ∧
      t = { s with regs := s.regs.set 7 (s.reg 7 - 1), pc := s.pc + 2, mem := t.mem } ∧
      s.pushAddr.toNat + 1 = (s.reg 7).toNat ∧
      t.mem.read s.pushAddr.toNat = (if r = 7 then s.reg 7 - 1 else s.reg r) ∧
      ∀ a, a ≠ s.pushAddr.toNat → t.mem.read a = s.mem.read a) ∧
    (∀ r : RegIdx, s.reg 7 = 0 → exec (.push (regByte r)) s = .next (s.raise .stackOverflow 0)) ∧
    ∀ a : Byte, 7 < a.toNat → exec (.push a) s = .next (s.raise .registerIndexError (a.setWidth 16))

/-- POP (R130, R132): it loads the byte at `x[7]`, then increments `x[7]`; StackUnderflow when the pointer to be
incremented is 255. With operand 7 the popped byte is the pointer that is incremented (the spec's decision D14); the name
of the fault is its decision D12. No byte of memory changes. -/
def Obligations.PopLoadsAtStackPointer : Prop :=
  ∀ s : State,
    (∀ r : RegIdx, r ≠ 7 → s.reg 7 ≠ 255 → exec (.pop (regByte r)) s =
      .next { s with
        regs := (s.regs.set r (s.mem.read (s.reg 7).toNat)).set 7 (s.reg 7 + 1), pc := s.pc + 2 }) ∧
    (∀ r : RegIdx, r ≠ 7 → s.reg 7 = 255 → exec (.pop (regByte r)) s = .next (s.raise .stackUnderflow 255)) ∧
    (s.mem.read (s.reg 7).toNat ≠ 255 → exec (.pop 7) s =
      .next { s with regs := s.regs.set 7 (s.mem.read (s.reg 7).toNat + 1), pc := s.pc + 2 }) ∧
    (s.mem.read (s.reg 7).toNat = 255 → exec (.pop 7) s = .next (s.raise .stackUnderflow 255)) ∧
    ∀ a : Byte, 7 < a.toNat → exec (.pop a) s = .next (s.raise .registerIndexError (a.setWidth 16))

/-- CALL (R130, R133): it decrements `x[7]`, stores `pc + 2` at the decremented address and at no other, and goes to the
register's value read after the decrement. StackOverflow at `x[7] = 0`, else AddressError when `pc + 2` exceeds 255. The
spec's decisions D12, D13, D14. -/
def Obligations.CallStoresReturnAddress : Prop :=
  ∀ s : State, s.mem.wf = true →
    (∀ r : RegIdx, s.reg 7 ≠ 0 → s.pc.toNat + 2 ≤ 255 → ∃ t, exec (.call (regByte r)) s = .next t ∧
      t = { s with regs := s.regs.set 7 (s.reg 7 - 1), pc := t.pc, mem := t.mem } ∧
      t.pc.toNat = (if r = 7 then s.reg 7 - 1 else s.reg r).toNat ∧
      s.pushAddr.toNat + 1 = (s.reg 7).toNat ∧
      (t.mem.read s.pushAddr.toNat).toNat = s.pc.toNat + 2 ∧
      ∀ a, a ≠ s.pushAddr.toNat → t.mem.read a = s.mem.read a) ∧
    (∀ r : RegIdx, s.reg 7 = 0 → exec (.call (regByte r)) s = .next (s.raise .stackOverflow 0)) ∧
    (∀ r : RegIdx, s.reg 7 ≠ 0 → 255 < s.pc.toNat + 2 →
      exec (.call (regByte r)) s = .next (s.raise .addressError (BitVec.ofNat 16 (s.pc.toNat + 2)))) ∧
    ∀ a : Byte, 7 < a.toNat → exec (.call a) s = .next (s.raise .registerIndexError (a.setWidth 16))

/-- RET (R130, R134): `pc` becomes the byte at `x[7]`, then `x[7]` is incremented; StackUnderflow at `x[7] = 255` (the
name is the spec's decision D12). No byte of memory changes. -/
def Obligations.RetReturnsToStackedAddress : Prop :=
  ∀ s : State,
    (s.reg 7 ≠ 255 → ∃ p : PcWord, p.toNat = (s.mem.read (s.reg 7).toNat).toNat ∧
      exec .ret s = .next { s with regs := s.regs.set 7 (s.reg 7 + 1), pc := p }) ∧
    (s.reg 7 = 255 → exec .ret s = .next (s.raise .stackUnderflow 255))

/-- HLT (R140): ST becomes HALTED and `pc` advances by 1 (the spec's decision D11); nothing else changes and no fault is
possible. Its byte may stand at every address, 255 among them; the byte after it is never fetched, since no step follows. -/
def Obligations.HltHalts : Prop :=
  (∀ s : State, exec .hlt s = .next { s with pc := s.pc + 1, st := .halted }) ∧
  ∀ (o : OpcodeMap) (s : State), o.Admissible → s.st = .running → s.pc.toNat ≤ 255 →
    s.mem.read s.pc.toNat = o .hlt → ∃ t, stepWith o s = .next t ∧
      t = { s with pc := t.pc, st := .halted } ∧ t.pc.toNat = s.pc.toNat + 1 ∧ ∀ u, stepWith o t ≠ .next u

/-- R154: a byte of 8..255 in a register position raises RegisterIndexError with that byte, the first operand tested
first, whatever else the state holds; and an instruction whose register operands are all 0..7, or that has none, never
raises it, so the implicit uses of register 7 never do. -/
def Obligations.BadRegisterOperandFaults : Prop :=
  ∀ (i : Instr) (s : State),
    (∀ a rest, i.regOperands = a :: rest → 7 < a.toNat →
      exec i s = .next (s.raise .registerIndexError (a.setWidth 16))) ∧
    (∀ a b, i.regOperands = [a, b] → a.toNat ≤ 7 → 7 < b.toNat →
      exec i s = .next (s.raise .registerIndexError (b.setWidth 16))) ∧
    (i.wellFormed = true → s.fcause ≠ 3 → ∀ t, exec i s = .next t → t.fcause ≠ 3)

/-! ### Frames and what is never read -/

/-- The registers' frame (R20, the column "written by"): an instruction that gives a next state leaves every register
alone but its destination (LDI, ADD, POP) and register 7 (PUSH, POP, CALL, RET). -/
def Obligations.OtherRegistersUnchanged : Prop :=
  ∀ (i : Instr) (s t : State) (r : RegIdx), exec i s = .next t → i.mayWriteReg r = false → t.reg r = s.reg r

/-- The memory's frame (R36, R56): every byte reads as before but the one at the address PUSH and CALL store to, computed
as their meanings compute it; all other instructions leave all of memory. -/
def Obligations.OtherMemoryUnchanged : Prop :=
  ∀ (i : Instr) (s t : State), exec i s = .next t →
    (∀ b, i.storeAddr s = some b → ∀ a, a ≠ b.toNat → t.mem.read a = s.mem.read a) ∧
    (i.storeAddr s = none → ∀ a, t.mem.read a = s.mem.read a)

/-- The frame of everything else (R20): the flags are written by CMP alone, OUT by PRN and MUL alone, and ST, FCAUSE, FINFO
by HLT (ST alone) and by a fault, which writes nothing else. -/
def Obligations.OtherSpecialStateUnchanged : Prop :=
  ∀ (i : Instr) (s t : State), exec i s = .next t →
    ((∀ a b, i ≠ .cmp a b) → t.flags = s.flags) ∧
    ((∀ a, i ≠ .prn a) → (∀ a b, i ≠ .mul a b) → t.out = s.out) ∧
    ((t.st = s.st ∧ t.fcause = s.fcause ∧ t.finfo = s.finfo) ∨
     (i = .hlt ∧ t.st = .halted ∧ t.fcause = s.fcause ∧ t.finfo = s.finfo) ∨
     ∃ f info, t = s.raise f info)

/-- R30: the flags change only in a step that runs CMP, which writes all three at once; no other instruction and no fault
changes them, so they persist until the next CMP. -/
def Obligations.FlagsChangeOnlyByCmp : Prop :=
  ∀ (o : OpcodeMap) (s t : State), stepWith o s = .next t →
    t.flags = s.flags ∨
    ∃ ra rb : RegIdx, fetch o s = .ok (.cmp (regByte ra) (regByte rb)) ∧ t.st = .running ∧
      t.flags = { l := decide ((s.reg ra).toNat < (s.reg rb).toNat)
                  g := decide ((s.reg rb).toNat < (s.reg ra).toNat)
                  e := decide ((s.reg ra).toNat = (s.reg rb).toNat) }

/-- R31: only JEQ and JNE read a flag, and only FL.E: a step from a state with other flags, where FL.E is the same or the
instruction is neither, does the same to everything but the flags. -/
def Obligations.OnlyEqualFlagIsRead : Prop :=
  ∀ (o : OpcodeMap) (s t : State) (f : Flags), stepWith o s = .next t →
    (f.e = s.flags.e ∨ ∀ a, fetch o s ≠ .ok (.jeq a) ∧ fetch o s ≠ .ok (.jne a)) →
    ∃ u, stepWith o { s with flags := f } = .next u ∧ { u with flags := t.flags } = t ∧
      (u.flags = f ∨ u.flags = t.flags)

/-- OUT is append-only and never read (R37; its width and its reset are the spec's decision D5): a step appends at most one
value, only PRN and MUL do, and what OUT held before changes nothing else. -/
def Obligations.OutputIsAppendedAndNeverRead : Prop :=
  ∀ (o : OpcodeMap) (s t : State), stepWith o s = .next t → ∃ vs : List OutWord,
    vs.length ≤ 1 ∧
    (vs ≠ [] → (∃ a, fetch o s = .ok (.prn a)) ∨ ∃ a b, fetch o s = .ok (.mul a b)) ∧
    ∀ out', stepWith o { s with out := out' } = .next { t with out := out' ++ vs }

/-- No instruction reads the fault registers, and only a fault writes them (R35, the spec's decision D7). -/
def Obligations.FaultRegistersAreNeverRead : Prop :=
  ∀ (o : OpcodeMap) (s t : State) (c : CauseWord) (f : InfoWord), stepWith o s = .next t →
    stepWith o { s with fcause := c, finfo := f } =
      .next (if t.st = .faulted then t else { t with fcause := c, finfo := f })

/-! ### Memory -/

/-- The Memory contract over every byte address (R50, R51): a write is read back, changes no other cell and no other
state, and keeps the canonical form. -/
def Obligations.StoreThenLoad : Prop :=
  ∀ (s : State) (a v : Byte), s.mem.wf = true →
    (s.store a v).load a = v ∧ (∀ b, b ≠ a → (s.store a v).load b = s.load b) ∧
    (s.store a v).mem.wf = true ∧ s.store a v = { s with mem := (s.store a v).mem }

/-- Canonical memories that read the same everywhere are the same data (the model's form of R36's 256 cells). -/
def Obligations.CanonicalMemoryIsUnique : Prop :=
  ∀ m n : Memory, m.wf = true → n.wf = true → (∀ a, a < 256 → m.read a = n.read a) → m = n

/-- A stored byte is seen by the very next fetch (R60, the spec's decision D16). `v` is the byte PUSH stores (with operand
7 the decremented pointer, D14) or the return address CALL stores; `after` is Memory with that byte at the stored address.
The step takes effect, Memory then reads as `after` everywhere, and the next step is decided by `after` alone, wherever the
stored byte lies among its bytes: it runs the instruction whose bytes stand in `after` at its program counter, or raises
AddressError(256) where that instruction's bytes end beyond 255, or IllegalInstruction where the byte is no opcode. -/
def Obligations.PushedByteIsFetchedNext : Prop :=
  ∀ (o : OpcodeMap) (s : State) (i : Instr) (v : Byte), o.Admissible → s.mem.wf = true → s.st = .running →
    fetch o s = .ok i → s.reg 7 ≠ 0 →
    ((∃ r : RegIdx, i = .push (regByte r) ∧ v = if r = 7 then s.reg 7 - 1 else s.reg r) ∨
     (∃ r : RegIdx, i = .call (regByte r) ∧ v.toNat = s.pc.toNat + 2)) →
    let after : Nat → Byte := fun a => if a = s.pushAddr.toNat then v else s.mem.read a
    ∃ t, stepWith o s = .next t ∧ t.st = .running ∧ (∀ a, t.mem.read a = after a) ∧
      (∀ m, t.pc.toNat ≤ 255 → after t.pc.toNat = o m → t.pc.toNat + m.length ≤ 256 →
        ∃ j, j.mnemonic = m ∧ (∀ k (h : k < (encode o j).length), (encode o j)[k] = after (t.pc.toNat + k)) ∧
          stepWith o t = exec j t) ∧
      (∀ m, t.pc.toNat ≤ 255 → after t.pc.toNat = o m → 256 < t.pc.toNat + m.length →
        stepWith o t = .next (t.raise .addressError 256)) ∧
      (t.pc.toNat ≤ 255 → (∀ m, o m ≠ after t.pc.toNat) →
        stepWith o t = .next (t.raise .illegalInstruction ((after t.pc.toNat).setWidth 16)))

/-! ### The stack across instructions -/

/-- PUSH then POP (R135, which the spec derives): the destination gets the pushed value, the stack pointer returns to its
value before, and every other register keeps its value. -/
def Obligations.PushThenPopRestores : Prop :=
  ∀ (s : State) (p q : RegIdx), s.mem.wf = true → p ≠ 7 → q ≠ 7 → s.reg 7 ≠ 0 →
    ∃ t u, exec (.push (regByte p)) s = .next t ∧ exec (.pop (regByte q)) t = .next u ∧
      u.reg q = s.reg p ∧ u.reg 7 = s.reg 7 ∧ (∀ r, r ≠ q → u.reg r = s.reg r) ∧ u.pc = s.pc + 4

/-- CALL then RET (R135, which the spec derives): from any state in which the subroutine has left the stack pointer and the
slot as it found them, RET resumes at the address of the CALL plus 2 and restores the stack pointer. -/
def Obligations.CallThenRetResumes : Prop :=
  ∀ (s : State) (r : RegIdx), s.mem.wf = true → s.reg 7 ≠ 0 → s.pc.toNat + 2 ≤ 255 →
    ∃ t, exec (.call (regByte r)) s = .next t ∧
      ∀ u : State, u.reg 7 = t.reg 7 → u.mem.read (t.reg 7).toNat = t.mem.read (t.reg 7).toNat →
        ∃ v, exec .ret u = .next v ∧ v.pc.toNat = s.pc.toNat + 2 ∧ v.reg 7 = s.reg 7

/-- Nested calls are last in, first out (R135, which the spec derives): after any number of calls that took effect, as many
returns go to the return addresses of the calls in reverse order, and all registers are as before the first call. -/
def Obligations.NestedCallsReturnInReverseOrder : Prop :=
  ∀ (rs : List RegIdx) (s t : State), s.mem.wf = true → s.st = .running →
    execAll (rs.map fun r => .call (regByte r)) s = .next t → t.st = .running →
    pcTrace (List.replicate rs.length .ret) t =
      ((pcsOf (rs.map fun r => .call (regByte r)) s).map (· + 2)).reverse ∧
    ∃ u, execAll (List.replicate rs.length .ret) t = .next u ∧ u.st = .running ∧ u.regs = s.regs ∧
      u.flags = s.flags ∧ u.out = s.out

/-! ### The interfaces -/

/-- The status interface: the flag byte's bits and the encodings of ST (R33, R34; the layout of the flag byte is from
general knowledge, log entry 7, the encodings of ST are the spec's decision D7). -/
def Obligations.StatusEncodingsAreTheSpecs : Prop :=
  (∀ f : Flags, f.byte.toNat < 8 ∧ f.byte.getLsbD 2 = f.l ∧ f.byte.getLsbD 1 = f.g ∧ f.byte.getLsbD 0 = f.e) ∧
  RunState.running.code = 0 ∧ RunState.halted.code = 1 ∧ RunState.faulted.code = 2

/-- Placing a word where the next step fetches (the model's own operation, log entry 5): the very next step runs exactly
the instruction the word decodes to. -/
def Obligations.PlacedWordRunsNext : Prop :=
  ∀ (s : State) (nbits w : Nat) (i : Instr), s.mem.wf = true → decodeTableWord nbits w = some i →
    step (s.withFetchWord nbits w) = exec i (s.withFetchWord nbits w)
end

