-- ==== Sys2Proof/Laws/Decode.lean ====
section
/-! SUPPORT. The decoder's opcode lookup (30_encoding.md R79) and its operand reading. -/

namespace Sys2Proof

theorem Mnemonic.mem_all (m : Mnemonic) : m ∈ Mnemonic.all := by
  cases m <;> decide

/-- Because `OPC` is injective the lookup of a mnemonic's opcode finds that mnemonic (R79). -/
theorem decodeOpcode_self {o : OpcodeMap} (h : Function.Injective o) (m : Mnemonic) : decodeOpcode o (o m) = some m := by
  cases hd : decodeOpcode o (o m) with
  | none => simpa using List.find?_eq_none.1 hd m m.mem_all
  | some n =>
    have hn := List.find?_some hd
    exact congrArg some (h (by simpa using hn))

theorem decodeOpcode_some {o : OpcodeMap} {b : Byte} {m : Mnemonic} (h : decodeOpcode o b = some m) : o m = b := by
  simpa using List.find?_some h

theorem decodeOpcode_none {o : OpcodeMap} {b : Byte} : decodeOpcode o b = none ↔ ∀ m, o m ≠ b := by
  constructor
  · intro h m
    simpa using List.find?_eq_none.1 h m m.mem_all
  · intro h
    exact List.find?_eq_none.2 fun m _ => by simpa using h m

/-- The default `OPC` is injective and has no zero byte (R8, R78). -/
theorem opcDefault_admissible : opcDefault.Admissible where
  injective := by
    intro m n h
    cases m <;> cases n <;> first | rfl | exact absurd h (by decide)
  nonzero := by
    intro m
    cases m <;> decide

/-- All reading one operand byte can give. -/
theorem takeOne_ok {mk : Byte → Instr} {bs rest : List Byte} {i : Instr} (h : takeOne mk bs = .ok (i, rest)) :
    ∃ a, bs = a :: rest ∧ i = mk a := by
  cases bs with
  | nil => cases h
  | cons a bs => cases h; exact ⟨a, rfl, rfl⟩

/-- All reading two operand bytes can give. -/
theorem takeTwo_ok {mk : Byte → Byte → Instr} {bs rest : List Byte} {i : Instr} (h : takeTwo mk bs = .ok (i, rest)) :
    ∃ a b, bs = a :: b :: rest ∧ i = mk a b := by
  match bs, h with
  | a :: b :: _, h => cases h; exact ⟨a, b, rfl, rfl⟩

end Sys2Proof
end

