-- ==== Sys2Proof/Laws/Memory.lean ====
section
/-! SUPPORT. Memory: every write keeps the canonical form, a read after a write gives the value written, and a write
leaves every other address alone (20_memory.md R50, R51). -/

namespace Sys2Proof.Machine

theorem Memory.wfFrom_cons {lo a : Nat} {v : Byte} {m : Memory} :
    Memory.wfFrom lo ((a, v) :: m) = true ↔
      lo ≤ a ∧ a < 256 ∧ v ≠ 0 ∧ Memory.wfFrom (a + 1) m = true := by
  have hm : Config.memSize = 256 := rfl
  simp [Memory.wfFrom, hm, Memory.unlisted, and_assoc]

theorem Memory.write_nil_zero (a : Nat) : Memory.write [] a 0 = [] := rfl

theorem Memory.write_nil {v : Byte} (a : Nat) (hv : v ≠ 0) : Memory.write [] a v = [(a, v)] := if_neg hv

theorem Memory.wfFrom_mono {lo lo' : Nat} {m : Memory} (hlo : lo' ≤ lo) (h : Memory.wfFrom lo m = true) :
    Memory.wfFrom lo' m = true := by
  cases m with
  | nil => rfl
  | cons c m =>
    obtain ⟨a, v⟩ := c
    rw [Memory.wfFrom_cons] at h ⊢
    exact ⟨by omega, h.2⟩

/-- Below its lower bound a canonical memory lists nothing. -/
theorem Memory.read_below {lo a : Nat} {m : Memory} (h : Memory.wfFrom lo m = true) (ha : a < lo) : m.read a = 0 := by
  induction m generalizing lo with
  | nil => rfl
  | cons c m ih =>
    obtain ⟨k, v⟩ := c
    rw [Memory.wfFrom_cons] at h
    have hk : a ≠ k := by omega
    simp only [Memory.read, hk, if_false]
    exact ih h.2.2.2 (by omega)

theorem Memory.wfFrom_write {lo a : Nat} {m : Memory} (v : Byte) (h : Memory.wfFrom lo m = true) (hlo : lo ≤ a)
    (ha : a < 256) : Memory.wfFrom lo (m.write a v) = true := by
  induction m generalizing lo with
  | nil =>
    by_cases hv : v = 0
    · rw [hv, Memory.write_nil_zero]
      rfl
    · rw [Memory.write_nil a hv, Memory.wfFrom_cons]
      exact ⟨hlo, ha, hv, rfl⟩
  | cons c m ih =>
    obtain ⟨k, w⟩ := c
    have hc := Memory.wfFrom_cons.1 h
    unfold Memory.write
    split_ifs with h1 h2 h3 h4
    · exact h
    · rw [Memory.wfFrom_cons, Memory.wfFrom_cons]
      exact ⟨hlo, ha, h2, by omega, hc.2⟩
    · exact Memory.wfFrom_mono (by omega) hc.2.2.2
    · rw [Memory.wfFrom_cons]
      exact ⟨hlo, ha, h4, h3 ▸ hc.2.2.2⟩
    · rw [Memory.wfFrom_cons]
      exact ⟨hc.1, hc.2.1, hc.2.2.1, ih hc.2.2.2 (by omega)⟩

/-- A write inside Memory keeps the canonical form. -/
theorem Memory.wf_write {m : Memory} {a : Nat} (v : Byte) (h : m.wf = true) (ha : a < 256) :
    (m.write a v).wf = true :=
  Memory.wfFrom_write v h (Nat.zero_le a) ha

/-- A read after a write to the same address gives the value written. -/
theorem Memory.read_write_same {lo a : Nat} {m : Memory} (v : Byte) (h : Memory.wfFrom lo m = true) :
    (m.write a v).read a = v := by
  induction m generalizing lo with
  | nil =>
    by_cases hv : v = 0
    · rw [hv, Memory.write_nil_zero]
      rfl
    · rw [Memory.write_nil a hv]
      simp [Memory.read]
  | cons c m ih =>
    obtain ⟨k, w⟩ := c
    have hc := Memory.wfFrom_cons.1 h
    unfold Memory.write
    split_ifs with h1 h2 h3 h4
    · have hk : a ≠ k := by omega
      simp only [Memory.read, hk, if_false, h2]
      exact Memory.read_below hc.2.2.2 (by omega)
    · simp [Memory.read]
    · rw [Memory.read_below hc.2.2.2 (by omega), h4, Memory.unlisted]
    · simp [Memory.read]
    · simp only [Memory.read, h3, if_false]
      exact ih hc.2.2.2

/-- A write leaves every other address alone, in every memory. -/
theorem Memory.read_write_other {m : Memory} {a b : Nat} (v : Byte) (h : b ≠ a) : (m.write a v).read b = m.read b := by
  induction m with
  | nil =>
    by_cases hv : v = 0
    · rw [hv, Memory.write_nil_zero]
    · rw [Memory.write_nil a hv]
      simp [Memory.read, h]
  | cons c m ih =>
    obtain ⟨k, w⟩ := c
    unfold Memory.write
    split_ifs with h1 h2 h3 h4
    · rfl
    · simp [Memory.read, h]
    · subst h3; simp [Memory.read, h]
    · subst h3; simp [Memory.read, h]
    · simp only [Memory.read, ih]

/-- Bytes written inside Memory keep the canonical form. -/
theorem Memory.wf_writeBytes {bs : List Byte} {m : Memory} {a : Nat} (h : m.wf = true) (hb : a + bs.length ≤ 256) :
    (m.writeBytes a bs).wf = true := by
  induction bs generalizing m a with
  | nil => exact h
  | cons b bs ih =>
    simp only [List.length_cons] at hb
    exact ih (Memory.wf_write b h (by omega)) (by omega)

/-- Bytes written from `a` on leave every address outside them alone. -/
theorem Memory.read_writeBytes_other {bs : List Byte} {m : Memory} {a k : Nat} (h : k < a ∨ a + bs.length ≤ k) :
    (m.writeBytes a bs).read k = m.read k := by
  induction bs generalizing m a with
  | nil => rfl
  | cons b bs ih =>
    simp only [List.length_cons] at h
    rw [Memory.writeBytes, ih (by omega), Memory.read_write_other b (by omega)]

/-- The bytes written from `a` on are read back. -/
theorem Memory.read_writeBytes_inside {bs : List Byte} {m : Memory} {a k : Nat} (hm : m.wf = true)
    (hb : a + bs.length ≤ 256) (hk : k < bs.length) : (m.writeBytes a bs).read (a + k) = bs[k] := by
  induction bs generalizing m a k with
  | nil => simp at hk
  | cons b bs ih =>
    simp only [List.length_cons] at hb hk
    have hw := Memory.wf_write b hm (show a < 256 by omega)
    cases k with
    | zero =>
      rw [Memory.writeBytes, Memory.read_writeBytes_other (by omega)]
      exact Memory.read_write_same b hm
    | succ k =>
      rw [Memory.writeBytes, show a + (k + 1) = a + 1 + k by omega, ih hw (by omega) (by omega)]
      rfl

theorem reset_mem_wf : State.reset.mem.wf = true := rfl

/-- Every operation that stores keeps the canonical form. -/
theorem State.store_mem_wf {s : State} (a v : Byte) (h : s.mem.wf = true) : (s.store a v).mem.wf = true :=
  Memory.wf_write v h a.isLt

/-- A launch state's memory is canonical. -/
theorem State.launch_mem_wf {spInit : Byte} {image : List Byte} {s : State} (h : State.launch spInit image = some s) :
    s.mem.wf = true := by
  unfold State.launch at h
  split at h
  next hl =>
    cases h
    exact Memory.wf_writeBytes rfl (by simpa [Config.memSize] using hl)
  next => cases h

@[simp] theorem State.load_store_same {s : State} {a v : Byte} (h : s.mem.wf = true) : (s.store a v).load a = v :=
  Memory.read_write_same v h

@[simp] theorem State.load_store_other {s : State} {a b v : Byte} (h : b ≠ a) : (s.store a v).load b = s.load b :=
  Memory.read_write_other v fun hn => h (BitVec.eq_of_toNat_eq hn)

end Sys2Proof.Machine
end

