-- ==== Sys2Proof/Laws/State.lean ====
section
/-! SUPPORT. The small lemmas of the state's updates: one per field per update, true by definition, and the register
file's read after write. -/

namespace Sys2Proof.Machine

@[simp] theorem State.setReg_regs (s : State) (r : RegIdx) (v : Byte) : (s.setReg r v).regs = s.regs.set r v := rfl
@[simp] theorem State.setReg_pc (s : State) (r : RegIdx) (v : Byte) : (s.setReg r v).pc = s.pc := rfl
@[simp] theorem State.setReg_flags (s : State) (r : RegIdx) (v : Byte) : (s.setReg r v).flags = s.flags := rfl
@[simp] theorem State.setReg_st (s : State) (r : RegIdx) (v : Byte) : (s.setReg r v).st = s.st := rfl
@[simp] theorem State.setReg_fcause (s : State) (r : RegIdx) (v : Byte) : (s.setReg r v).fcause = s.fcause := rfl
@[simp] theorem State.setReg_finfo (s : State) (r : RegIdx) (v : Byte) : (s.setReg r v).finfo = s.finfo := rfl
@[simp] theorem State.setReg_mem (s : State) (r : RegIdx) (v : Byte) : (s.setReg r v).mem = s.mem := rfl
@[simp] theorem State.setReg_out (s : State) (r : RegIdx) (v : Byte) : (s.setReg r v).out = s.out := rfl

@[simp] theorem State.setSp_regs (s : State) (v : Byte) : (s.setSp v).regs = s.regs.set Config.spIndex v := rfl
@[simp] theorem State.setSp_pc (s : State) (v : Byte) : (s.setSp v).pc = s.pc := rfl
@[simp] theorem State.setSp_flags (s : State) (v : Byte) : (s.setSp v).flags = s.flags := rfl
@[simp] theorem State.setSp_st (s : State) (v : Byte) : (s.setSp v).st = s.st := rfl
@[simp] theorem State.setSp_fcause (s : State) (v : Byte) : (s.setSp v).fcause = s.fcause := rfl
@[simp] theorem State.setSp_finfo (s : State) (v : Byte) : (s.setSp v).finfo = s.finfo := rfl
@[simp] theorem State.setSp_mem (s : State) (v : Byte) : (s.setSp v).mem = s.mem := rfl
@[simp] theorem State.setSp_out (s : State) (v : Byte) : (s.setSp v).out = s.out := rfl

@[simp] theorem State.setPc_regs (s : State) (t : PcWord) : (s.setPc t).regs = s.regs := rfl
@[simp] theorem State.setPc_pc (s : State) (t : PcWord) : (s.setPc t).pc = t := rfl
@[simp] theorem State.setPc_flags (s : State) (t : PcWord) : (s.setPc t).flags = s.flags := rfl
@[simp] theorem State.setPc_st (s : State) (t : PcWord) : (s.setPc t).st = s.st := rfl
@[simp] theorem State.setPc_fcause (s : State) (t : PcWord) : (s.setPc t).fcause = s.fcause := rfl
@[simp] theorem State.setPc_finfo (s : State) (t : PcWord) : (s.setPc t).finfo = s.finfo := rfl
@[simp] theorem State.setPc_mem (s : State) (t : PcWord) : (s.setPc t).mem = s.mem := rfl
@[simp] theorem State.setPc_out (s : State) (t : PcWord) : (s.setPc t).out = s.out := rfl

@[simp] theorem State.advance_regs (s : State) (n : Nat) : (s.advance n).regs = s.regs := rfl
@[simp] theorem State.advance_pc (s : State) (n : Nat) : (s.advance n).pc = s.pc + BitVec.ofNat _ n := rfl
@[simp] theorem State.advance_flags (s : State) (n : Nat) : (s.advance n).flags = s.flags := rfl
@[simp] theorem State.advance_st (s : State) (n : Nat) : (s.advance n).st = s.st := rfl
@[simp] theorem State.advance_fcause (s : State) (n : Nat) : (s.advance n).fcause = s.fcause := rfl
@[simp] theorem State.advance_finfo (s : State) (n : Nat) : (s.advance n).finfo = s.finfo := rfl
@[simp] theorem State.advance_mem (s : State) (n : Nat) : (s.advance n).mem = s.mem := rfl
@[simp] theorem State.advance_out (s : State) (n : Nat) : (s.advance n).out = s.out := rfl

@[simp] theorem State.setFlags_regs (s : State) (f : Flags) : (s.setFlags f).regs = s.regs := rfl
@[simp] theorem State.setFlags_pc (s : State) (f : Flags) : (s.setFlags f).pc = s.pc := rfl
@[simp] theorem State.setFlags_flags (s : State) (f : Flags) : (s.setFlags f).flags = f := rfl
@[simp] theorem State.setFlags_st (s : State) (f : Flags) : (s.setFlags f).st = s.st := rfl
@[simp] theorem State.setFlags_fcause (s : State) (f : Flags) : (s.setFlags f).fcause = s.fcause := rfl
@[simp] theorem State.setFlags_finfo (s : State) (f : Flags) : (s.setFlags f).finfo = s.finfo := rfl
@[simp] theorem State.setFlags_mem (s : State) (f : Flags) : (s.setFlags f).mem = s.mem := rfl
@[simp] theorem State.setFlags_out (s : State) (f : Flags) : (s.setFlags f).out = s.out := rfl

@[simp] theorem State.emit_regs (s : State) (v : OutWord) : (s.emit v).regs = s.regs := rfl
@[simp] theorem State.emit_pc (s : State) (v : OutWord) : (s.emit v).pc = s.pc := rfl
@[simp] theorem State.emit_flags (s : State) (v : OutWord) : (s.emit v).flags = s.flags := rfl
@[simp] theorem State.emit_st (s : State) (v : OutWord) : (s.emit v).st = s.st := rfl
@[simp] theorem State.emit_fcause (s : State) (v : OutWord) : (s.emit v).fcause = s.fcause := rfl
@[simp] theorem State.emit_finfo (s : State) (v : OutWord) : (s.emit v).finfo = s.finfo := rfl
@[simp] theorem State.emit_mem (s : State) (v : OutWord) : (s.emit v).mem = s.mem := rfl
@[simp] theorem State.emit_out (s : State) (v : OutWord) : (s.emit v).out = s.out ++ [v] := rfl

@[simp] theorem State.store_regs (s : State) (a v : Byte) : (s.store a v).regs = s.regs := rfl
@[simp] theorem State.store_pc (s : State) (a v : Byte) : (s.store a v).pc = s.pc := rfl
@[simp] theorem State.store_flags (s : State) (a v : Byte) : (s.store a v).flags = s.flags := rfl
@[simp] theorem State.store_st (s : State) (a v : Byte) : (s.store a v).st = s.st := rfl
@[simp] theorem State.store_fcause (s : State) (a v : Byte) : (s.store a v).fcause = s.fcause := rfl
@[simp] theorem State.store_finfo (s : State) (a v : Byte) : (s.store a v).finfo = s.finfo := rfl
@[simp] theorem State.store_mem (s : State) (a v : Byte) : (s.store a v).mem = s.mem.write a.toNat v := rfl
@[simp] theorem State.store_out (s : State) (a v : Byte) : (s.store a v).out = s.out := rfl

@[simp] theorem State.raise_regs (s : State) (f : CoreFault) (i : InfoWord) : (s.raise f i).regs = s.regs := rfl
@[simp] theorem State.raise_pc (s : State) (f : CoreFault) (i : InfoWord) : (s.raise f i).pc = s.pc := rfl
@[simp] theorem State.raise_flags (s : State) (f : CoreFault) (i : InfoWord) : (s.raise f i).flags = s.flags := rfl
@[simp] theorem State.raise_st (s : State) (f : CoreFault) (i : InfoWord) : (s.raise f i).st = .faulted := rfl
@[simp] theorem State.raise_fcause (s : State) (f : CoreFault) (i : InfoWord) : (s.raise f i).fcause = (Config.faultCode f) := rfl
@[simp] theorem State.raise_finfo (s : State) (f : CoreFault) (i : InfoWord) : (s.raise f i).finfo = i := rfl
@[simp] theorem State.raise_mem (s : State) (f : CoreFault) (i : InfoWord) : (s.raise f i).mem = s.mem := rfl
@[simp] theorem State.raise_out (s : State) (f : CoreFault) (i : InfoWord) : (s.raise f i).out = s.out := rfl

@[simp] theorem State.aluAdd_regs (s : State) (a b : RegIdx) : (s.aluAdd a b).regs = s.regs.set a (addBytes (s.reg a) (s.reg b)) := rfl
@[simp] theorem State.aluAdd_pc (s : State) (a b : RegIdx) : (s.aluAdd a b).pc = s.pc := rfl
@[simp] theorem State.aluAdd_flags (s : State) (a b : RegIdx) : (s.aluAdd a b).flags = s.flags := rfl
@[simp] theorem State.aluAdd_st (s : State) (a b : RegIdx) : (s.aluAdd a b).st = s.st := rfl
@[simp] theorem State.aluAdd_fcause (s : State) (a b : RegIdx) : (s.aluAdd a b).fcause = s.fcause := rfl
@[simp] theorem State.aluAdd_finfo (s : State) (a b : RegIdx) : (s.aluAdd a b).finfo = s.finfo := rfl
@[simp] theorem State.aluAdd_mem (s : State) (a b : RegIdx) : (s.aluAdd a b).mem = s.mem := rfl
@[simp] theorem State.aluAdd_out (s : State) (a b : RegIdx) : (s.aluAdd a b).out = s.out := rfl

@[simp] theorem State.aluCompare_regs (s : State) (a b : RegIdx) : (s.aluCompare a b).regs = s.regs := rfl
@[simp] theorem State.aluCompare_pc (s : State) (a b : RegIdx) : (s.aluCompare a b).pc = s.pc := rfl
@[simp] theorem State.aluCompare_flags (s : State) (a b : RegIdx) : (s.aluCompare a b).flags = compareBytes (s.reg a) (s.reg b) := rfl
@[simp] theorem State.aluCompare_st (s : State) (a b : RegIdx) : (s.aluCompare a b).st = s.st := rfl
@[simp] theorem State.aluCompare_fcause (s : State) (a b : RegIdx) : (s.aluCompare a b).fcause = s.fcause := rfl
@[simp] theorem State.aluCompare_finfo (s : State) (a b : RegIdx) : (s.aluCompare a b).finfo = s.finfo := rfl
@[simp] theorem State.aluCompare_mem (s : State) (a b : RegIdx) : (s.aluCompare a b).mem = s.mem := rfl
@[simp] theorem State.aluCompare_out (s : State) (a b : RegIdx) : (s.aluCompare a b).out = s.out := rfl

/-- With the spec's MUL_WRITEBACK, MUL's write-back changes nothing. -/
@[simp] theorem State.writeBackProduct_eq (s : State) (r : RegIdx) (p : OutWord) : s.writeBackProduct r p = s := rfl

/-- With the spec's OVERFLOW_POLICY, the addition wraps modulo 256. -/
theorem addBytes_toNat (u v : Byte) : (addBytes u v).toNat = (u.toNat + v.toNat) % 256 := by
  show (BitVec.ofNat 8 ((u.toNat + v.toNat) % 256)).toNat = _
  rw [BitVec.toNat_ofNat, Nat.mod_mod]

/-- Registers are read as the spec's `x[r]`. -/
theorem State.reg_eq (s : State) (r : RegIdx) : s.reg r = s.regs[r] := rfl

@[simp] theorem State.reg_setReg_same (s : State) (r : RegIdx) (v : Byte) : (s.setReg r v).reg r = v := by
  simp [State.reg, State.setReg]

@[simp] theorem State.reg_setReg_other (s : State) {r q : RegIdx} (v : Byte) (h : r ≠ q) :
    (s.setReg r v).reg q = s.reg q := by
  simp [State.reg, State.setReg, Fin.val_inj, h]

@[simp] theorem State.sp_setSp (s : State) (v : Byte) : (s.setSp v).sp = v := State.reg_setReg_same s _ v

@[simp] theorem State.reg_setPc (s : State) (t : PcWord) (r : RegIdx) : (s.setPc t).reg r = s.reg r := rfl

@[simp] theorem State.reg_advance (s : State) (n : Nat) (r : RegIdx) : (s.advance n).reg r = s.reg r := rfl

@[simp] theorem State.reg_store (s : State) (a v : Byte) (r : RegIdx) : (s.store a v).reg r = s.reg r := rfl

@[simp] theorem State.reg_emit (s : State) (v : OutWord) (r : RegIdx) : (s.emit v).reg r = s.reg r := rfl

@[simp] theorem State.reg_setFlags (s : State) (f : Flags) (r : RegIdx) : (s.setFlags f).reg r = s.reg r := rfl

@[simp] theorem State.reg_raise (s : State) (f : CoreFault) (i : InfoWord) (r : RegIdx) : (s.raise f i).reg r = s.reg r := rfl

@[simp] theorem State.sp_store (s : State) (a v : Byte) : (s.store a v).sp = s.sp := rfl

@[simp] theorem State.sp_setPc (s : State) (t : PcWord) : (s.setPc t).sp = s.sp := rfl

@[simp] theorem State.sp_advance (s : State) (n : Nat) : (s.advance n).sp = s.sp := rfl

end Sys2Proof.Machine
end

