-- ==== Sys2Proof/Laws/Ops.lean ====
section
/-! SUPPORT. One lemma per shared operation that says once everything it can do: the operand test, the stack tests, the
return-address test, the fetch and the step. Provers cite these instead of unfolding. -/

namespace Sys2Proof.Machine

theorem regByte_toNat (r : RegIdx) : (regByte r).toNat = r.val := by
  simp only [regByte, BitVec.toNat_ofNat]
  omega

@[simp] theorem regOperand_regByte (r : RegIdx) : regOperand (regByte r) = some r := by
  have h := regByte_toNat r
  unfold regOperand
  rw [dif_pos (by rw [h]; exact r.isLt)]
  exact congrArg some (Fin.ext h)

theorem regOperand_eq_some {b : Byte} {r : RegIdx} : regOperand b = some r ↔ b = regByte r := by
  constructor
  · intro h
    unfold regOperand at h
    split at h
    next hb =>
      cases h
      exact BitVec.eq_of_toNat_eq (regByte_toNat ⟨b.toNat, hb⟩).symm
    next => cases h
  · rintro rfl
    exact regOperand_regByte r

theorem regOperand_eq_none {b : Byte} : regOperand b = none ↔ 7 < b.toNat := by
  unfold regOperand Config.nReg
  split <;> simp <;> omega

/-- Every operand byte either names a register or is 8..255. -/
theorem byte_isReg_or_bad (b : Byte) : (∃ r, b = regByte r) ∨ 7 < b.toNat := by
  cases h : regOperand b with
  | some r => exact .inl ⟨r, regOperand_eq_some.1 h⟩
  | none => exact .inr (regOperand_eq_none.1 h)

@[simp] theorem withReg_regByte (r : RegIdx) (s : State) (k : RegIdx → Result) : withReg (regByte r) s k = k r := by
  simp [withReg]

theorem withReg_bad {b : Byte} (h : 7 < b.toNat) (s : State) (k : RegIdx → Result) :
    withReg b s k = .next (s.raise .registerIndexError (b.setWidth 16)) := by
  simp [withReg, regOperand_eq_none.2 h]

/-- All a register operand's use can do: RegisterIndexError, or the rest of the handler with the register named. -/
theorem withReg_next {b : Byte} {s t : State} {k : RegIdx → Result} (h : withReg b s k = .next t) :
    (7 < b.toNat ∧ t = s.raise .registerIndexError (b.setWidth 16)) ∨ (∃ r, b = regByte r ∧ k r = .next t) := by
  rcases byte_isReg_or_bad b with ⟨r, rfl⟩ | hb
  · exact .inr ⟨r, rfl, by simpa using h⟩
  · rw [withReg_bad hb] at h
    exact .inl ⟨hb, by cases h; rfl⟩

/-- All the two register operands' use can do. -/
theorem withRegs_next {a b : Byte} {s t : State} {k : RegIdx → RegIdx → Result} (h : withRegs a b s k = .next t) :
    (7 < a.toNat ∧ t = s.raise .registerIndexError (a.setWidth 16)) ∨
    (∃ ra, a = regByte ra ∧ 7 < b.toNat ∧ t = s.raise .registerIndexError (b.setWidth 16)) ∨
    (∃ ra rb, a = regByte ra ∧ b = regByte rb ∧ k ra rb = .next t) := by
  rcases withReg_next h with h1 | ⟨ra, ha, h2⟩
  · exact .inl h1
  · rcases withReg_next h2 with h3 | ⟨rb, hb, h4⟩
    · exact .inr (.inl ⟨ra, ha, h3⟩)
    · exact .inr (.inr ⟨ra, rb, ha, hb, h4⟩)

@[simp] theorem withRegs_regByte (ra rb : RegIdx) (s : State) (k : RegIdx → RegIdx → Result) :
    withRegs (regByte ra) (regByte rb) s k = k ra rb := by
  simp [withRegs]

theorem withStackRoom_pass {s : State} (h : s.sp ≠ 0) (k : Result) : withStackRoom s k = k := if_neg h

theorem withStackRoom_fault {s : State} (h : s.sp = 0) (k : Result) :
    withStackRoom s k = .next (s.raise .stackOverflow 0) := if_pos h

theorem withStackTop_pass {top : Byte} (h : top ≠ 255) (s : State) (k : Result) : withStackTop s top k = k := if_neg h

theorem withStackTop_fault {top : Byte} (h : top = 255) (s : State) (k : Result) :
    withStackTop s top k = .next (s.raise .stackUnderflow 255) := if_pos h

theorem withReturnAddr_pass {s : State} (h : s.pc.toNat + 2 ≤ 255) (k : Byte → Result) :
    withReturnAddr s k = k (BitVec.ofNat _ (s.pc.toNat + 2)) := if_neg (Nat.not_lt.2 h)

theorem withReturnAddr_fault {s : State} (h : 255 < s.pc.toNat + 2) (k : Byte → Result) :
    withReturnAddr s k = .next (s.raise .addressError (BitVec.ofNat 16 (s.pc.toNat + 2))) := if_pos h

/-- A jump target is the value of the register or memory byte (R28). -/
theorem targetOf_toNat (v : Byte) : (targetOf v).toNat = v.toNat := by
  simp only [targetOf, BitVec.toNat_setWidth]
  omega

/-- Where the pre-decrement does not underflow, the address pushed to is one below the stack pointer. -/
theorem pushAddr_toNat {s : State} (h : s.sp ≠ 0) : s.pushAddr.toNat + 1 = s.sp.toNat := by
  unfold State.pushAddr
  bv_omega

theorem withStackRoom_next {s t : State} {k : Result} (h : withStackRoom s k = .next t) :
    (s.sp = 0 ∧ t = s.raise .stackOverflow 0) ∨ (s.sp ≠ 0 ∧ k = .next t) := by
  unfold withStackRoom at h
  split at h
  next h0 => exact .inl ⟨h0, by cases h; rfl⟩
  next h0 => exact .inr ⟨h0, h⟩

theorem withStackTop_next {s t : State} {top : Byte} {k : Result} (h : withStackTop s top k = .next t) :
    (top = 255 ∧ t = s.raise .stackUnderflow 255) ∨ (top ≠ 255 ∧ k = .next t) := by
  unfold withStackTop at h
  split at h
  next h0 => exact .inl ⟨h0, by cases h; rfl⟩
  next h0 => exact .inr ⟨h0, h⟩

theorem withReturnAddr_next {s t : State} {k : Byte → Result} (h : withReturnAddr s k = .next t) :
    (255 < s.pc.toNat + 2 ∧ t = s.raise .addressError (BitVec.ofNat 16 (s.pc.toNat + 2))) ∨
    (s.pc.toNat + 2 ≤ 255 ∧ k (BitVec.ofNat _ (s.pc.toNat + 2)) = .next t) := by
  unfold withReturnAddr State.returnAddr at h
  split at h
  next h0 => exact .inl ⟨h0, by cases h; rfl⟩
  next h0 => exact .inr ⟨Nat.le_of_lt_succ (Nat.lt_of_not_le h0), h⟩

/-- A step that answers a next state ran in RUNNING, and took a fetch fault or ran one handler. -/
theorem stepWith_next {o : OpcodeMap} {s t : State} (h : stepWith o s = .next t) :
    s.st = .running ∧
      ((∃ i, fetch o s = .ok i ∧ exec i s = .next t) ∨
       (∃ f info, fetch o s = .error (f, info) ∧ t = s.raise f info)) := by
  unfold stepWith at h
  split at h
  · cases h
  · cases h
  · next hr =>
    refine ⟨hr, ?_⟩
    split at h
    · next i hi => exact .inl ⟨i, hi, h⟩
    · next f info hf => exact .inr ⟨f, info, hf, by cases h; rfl⟩

theorem stepWith_ok {o : OpcodeMap} {s : State} {i : Instr} (hr : s.st = .running) (hf : fetch o s = .ok i) :
    stepWith o s = exec i s := by
  simp [stepWith, hr, hf]

theorem stepWith_error {o : OpcodeMap} {s : State} {f : CoreFault} {info : InfoWord} (hr : s.st = .running)
    (hf : fetch o s = .error (f, info)) : stepWith o s = .next (s.raise f info) := by
  simp [stepWith, hr, hf]

/-- The fetch window by how far `pc` is from the top of Memory. -/
theorem Memory.window_cases (m : Memory) (a : Nat) :
    (255 < a ∧ m.window a = []) ∨
    (a = 255 ∧ m.window a = [m.read 255]) ∨
    (a = 254 ∧ m.window a = [m.read 254, m.read 255]) ∨
    (a ≤ 253 ∧ m.window a = [m.read a, m.read (a + 1), m.read (a + 2)]) := by
  have hw : m.window a = (([a, a + 1, a + 2] : List Nat).filter fun k => decide (k < 256)).map m.read := rfl
  rw [hw]
  by_cases h0 : a < 256
  · by_cases h1 : a + 1 < 256
    · by_cases h2 : a + 2 < 256
      · exact .inr (.inr (.inr ⟨by omega, by simp [h0, h1, h2]⟩))
      · obtain rfl : a = 254 := by omega
        exact .inr (.inr (.inl ⟨rfl, by simp⟩))
    · obtain rfl : a = 255 := by omega
      exact .inr (.inl ⟨rfl, by simp⟩)
  · exact .inl ⟨by omega, by simp [h0, show ¬ a + 1 < 256 by omega, show ¬ a + 2 < 256 by omega]⟩

end Sys2Proof.Machine
end

