-- ==== Sys2Proof/Laws/Exec.lean ====
section
/-! SUPPORT. What an instruction can do, said once: every next state of `exec` is the instruction's own effect or a fault
(`exec_next`), and what a fetch reads and cannot read. -/

namespace Sys2Proof.Machine

/-- The effect of an instruction on legal operands, with the conditions of its stack and address tests. -/
inductive Effect : Instr → State → State → Prop
  | ldi r imm s : Effect (.ldi (regByte r) imm) s ((s.setReg r imm).advance 3)
  | prn r s : Effect (.prn (regByte r)) s ((s.emit ((s.reg r).setWidth _)).advance 2)
  | mul r q s : Effect (.mul (regByte r) (regByte q)) s ((s.emit (s.aluMul r q)).advance 3)
  | add r q s : Effect (.add (regByte r) (regByte q)) s ((s.aluAdd r q).advance 3)
  | cmp r q s : Effect (.cmp (regByte r) (regByte q)) s ((s.aluCompare r q).advance 3)
  | jmp r s : Effect (.jmp (regByte r)) s (s.setPc (targetOf (s.reg r)))
  | jeq r s : Effect (.jeq (regByte r)) s (if s.flags.e then s.setPc (targetOf (s.reg r)) else s.advance 2)
  | jne r s : Effect (.jne (regByte r)) s (if s.flags.e then s.advance 2 else s.setPc (targetOf (s.reg r)))
  | push r s : s.sp ≠ 0 →
      Effect (.push (regByte r)) s (((s.setSp s.pushAddr).store s.pushAddr ((s.setSp s.pushAddr).reg r)).advance 2)
  | pop r s : popTop s r ≠ 255 →
      Effect (.pop (regByte r)) s (((s.setReg r (s.load s.sp)).setSp (popTop s r + 1)).advance 2)
  | call r s : s.sp ≠ 0 → s.pc.toNat + 2 ≤ 255 →
      Effect (.call (regByte r)) s (((s.setSp s.pushAddr).store s.pushAddr (BitVec.ofNat _ (s.pc.toNat + 2))).setPc
        (targetOf ((s.setSp s.pushAddr).reg r)))
  | ret s : s.sp ≠ 255 → Effect .ret s ((s.setPc (targetOf (s.load s.sp))).setSp (s.sp + 1))
  | hlt s : Effect .hlt s { s.advance 1 with st := .halted }

/-- The faults an instruction's meaning can take, with the condition that raises each. -/
inductive Trap : Instr → State → CoreFault → InfoWord → Prop
  | reg i s b : i.badRegOperand = some b → 7 < b.toNat → Trap i s .registerIndexError (b.setWidth 16)
  | pushOverflow r s : s.sp = 0 → Trap (.push (regByte r)) s .stackOverflow 0
  | callOverflow r s : s.sp = 0 → Trap (.call (regByte r)) s .stackOverflow 0
  | popUnderflow r s : popTop s r = 255 → Trap (.pop (regByte r)) s .stackUnderflow 255
  | retUnderflow s : s.sp = 255 → Trap .ret s .stackUnderflow 255
  | returnAddr r s : s.sp ≠ 0 → 255 < s.pc.toNat + 2 →
      Trap (.call (regByte r)) s .addressError (BitVec.ofNat 16 (s.pc.toNat + 2))

/-- The first register operand is the bad one. -/
theorem badRegOperand_first {i : Instr} {a : Byte} {rest : List Byte} (h : i.regOperands = a :: rest) (ha : 7 < a.toNat) :
    i.badRegOperand = some a := by
  have ha' : Config.nReg ≤ a.toNat := ha
  simp [Instr.badRegOperand, h, ha']

/-- The second register operand is the bad one, the first is legal. -/
theorem badRegOperand_second {i : Instr} {r : RegIdx} {b : Byte} (h : i.regOperands = [regByte r, b]) (hb : 7 < b.toNat) :
    i.badRegOperand = some b := by
  have hr : ¬ Config.nReg ≤ (regByte r).toNat := by
    rw [regByte_toNat]; exact Nat.not_le_of_lt r.isLt
  have hb' : Config.nReg ≤ b.toNat := hb
  simp [Instr.badRegOperand, h, hr, hb']

/-- Every next state of a meaning is its effect or one of its faults. -/
theorem exec_next {i : Instr} {s t : State} (h : exec i s = .next t) :
    Effect i s t ∨ ∃ f info, Trap i s f info ∧ t = s.raise f info := by
  cases i
  case ldi =>
    rcases withReg_next h with ⟨hb, rfl⟩ | ⟨r, rfl, k⟩
    · exact .inr ⟨_, _, .reg _ _ _ (badRegOperand_first rfl hb) hb, rfl⟩
    · cases k; exact .inl (.ldi _ _ _)
  case prn =>
    rcases withReg_next h with ⟨hb, rfl⟩ | ⟨r, rfl, k⟩
    · exact .inr ⟨_, _, .reg _ _ _ (badRegOperand_first rfl hb) hb, rfl⟩
    · cases k; exact .inl (.prn _ _)
  case mul =>
    rcases withRegs_next h with ⟨hb, rfl⟩ | ⟨r, rfl, hb, rfl⟩ | ⟨r, q, rfl, rfl, k⟩
    · exact .inr ⟨_, _, .reg _ _ _ (badRegOperand_first rfl hb) hb, rfl⟩
    · exact .inr ⟨_, _, .reg _ _ _ (badRegOperand_second rfl hb) hb, rfl⟩
    · cases k; exact .inl (.mul _ _ _)
  case add =>
    rcases withRegs_next h with ⟨hb, rfl⟩ | ⟨r, rfl, hb, rfl⟩ | ⟨r, q, rfl, rfl, k⟩
    · exact .inr ⟨_, _, .reg _ _ _ (badRegOperand_first rfl hb) hb, rfl⟩
    · exact .inr ⟨_, _, .reg _ _ _ (badRegOperand_second rfl hb) hb, rfl⟩
    · cases k; exact .inl (.add _ _ _)
  case cmp =>
    rcases withRegs_next h with ⟨hb, rfl⟩ | ⟨r, rfl, hb, rfl⟩ | ⟨r, q, rfl, rfl, k⟩
    · exact .inr ⟨_, _, .reg _ _ _ (badRegOperand_first rfl hb) hb, rfl⟩
    · exact .inr ⟨_, _, .reg _ _ _ (badRegOperand_second rfl hb) hb, rfl⟩
    · cases k; exact .inl (.cmp _ _ _)
  case jmp =>
    rcases withReg_next h with ⟨hb, rfl⟩ | ⟨r, rfl, k⟩
    · exact .inr ⟨_, _, .reg _ _ _ (badRegOperand_first rfl hb) hb, rfl⟩
    · cases k; exact .inl (.jmp _ _)
  case jeq =>
    rcases withReg_next h with ⟨hb, rfl⟩ | ⟨r, rfl, k⟩
    · exact .inr ⟨_, _, .reg _ _ _ (badRegOperand_first rfl hb) hb, rfl⟩
    · cases k; exact .inl (.jeq _ _)
  case jne =>
    rcases withReg_next h with ⟨hb, rfl⟩ | ⟨r, rfl, k⟩
    · exact .inr ⟨_, _, .reg _ _ _ (badRegOperand_first rfl hb) hb, rfl⟩
    · cases k; exact .inl (.jne _ _)
  case push =>
    rcases withReg_next h with ⟨hb, rfl⟩ | ⟨r, rfl, k⟩
    · exact .inr ⟨_, _, .reg _ _ _ (badRegOperand_first rfl hb) hb, rfl⟩
    · rcases withStackRoom_next k with ⟨h0, rfl⟩ | ⟨h0, k2⟩
      · exact .inr ⟨_, _, .pushOverflow _ _ h0, rfl⟩
      · cases k2; exact .inl (.push _ _ h0)
  case pop =>
    rcases withReg_next h with ⟨hb, rfl⟩ | ⟨r, rfl, k⟩
    · exact .inr ⟨_, _, .reg _ _ _ (badRegOperand_first rfl hb) hb, rfl⟩
    · rcases withStackTop_next k with ⟨h0, rfl⟩ | ⟨h0, k2⟩
      · exact .inr ⟨_, _, .popUnderflow _ _ h0, rfl⟩
      · cases k2; exact .inl (.pop _ _ h0)
  case call =>
    rcases withReg_next h with ⟨hb, rfl⟩ | ⟨r, rfl, k⟩
    · exact .inr ⟨_, _, .reg _ _ _ (badRegOperand_first rfl hb) hb, rfl⟩
    · rcases withStackRoom_next k with ⟨h0, rfl⟩ | ⟨h0, k2⟩
      · exact .inr ⟨_, _, .callOverflow _ _ h0, rfl⟩
      · rcases withReturnAddr_next k2 with ⟨h1, rfl⟩ | ⟨h1, k3⟩
        · exact .inr ⟨_, _, .returnAddr _ _ h0 h1, rfl⟩
        · cases k3; exact .inl (.call _ _ h0 h1)
  case ret =>
    rcases withStackTop_next h with ⟨h0, rfl⟩ | ⟨h0, k2⟩
    · exact .inr ⟨_, _, .retUnderflow _ h0, rfl⟩
    · cases k2; exact .inl (.ret _ h0)
  case hlt => cases h; exact .inl (.hlt _)

/-- The encoded instruction is as long as its row says. -/
theorem encode_length (o : OpcodeMap) (i : Instr) : (encode o i).length = i.length := by
  cases i <;> rfl

theorem fetch_ok {o : OpcodeMap} {s : State} {i : Instr} (h : fetch o s = .ok i) :
    ∃ rest, decode o s.window = .ok (i, rest) := by
  unfold fetch at h
  split at h
  · next j rest hd => cases h; exact ⟨rest, hd⟩
  · cases h

/-- All that bytes which hold no instruction can be: an illegal opcode, or bytes that end too early. -/
theorem decode_error {o : OpcodeMap} {bs : List Byte} {e : DecodeError} (h : decode o bs = .error e) :
    (∃ b rest, bs = b :: rest ∧ e = .illegalOpcode b ∧ ∀ m, o m ≠ b) ∨
    (e = .missingByte bs.length ∧
      (bs = [] ∨ ∃ b rest m, bs = b :: rest ∧ decodeOpcode o b = some m ∧ rest.length < m.arity)) := by
  cases bs with
  | nil => cases h; exact .inr ⟨rfl, .inl rfl⟩
  | cons b bs =>
    simp only [decode] at h
    cases hd : decodeOpcode o b with
    | none => simp [hd] at h; exact .inl ⟨b, bs, rfl, h.symm, decodeOpcode_none.1 hd⟩
    | some m =>
      simp only [hd] at h
      right
      have hm : e = .missingByte (bs.length + 1) ∧ bs.length < m.arity := by
        rcases bs with _ | ⟨a, _ | ⟨c, bs⟩⟩ <;> cases m <;>
          simp_all [decodeOperands, takeOne, takeTwo, Mnemonic.arity, Mnemonic.format, Format.arity]
      exact ⟨hm.1, .inr ⟨b, bs, m, rfl, hd, hm.2⟩⟩

/-- A fetch reads nothing but the program counter and Memory. -/
theorem fetch_congr {o : OpcodeMap} {s u : State} (h1 : u.pc = s.pc) (h2 : u.mem = s.mem) : fetch o u = fetch o s := by
  unfold fetch State.window
  rw [h1, h2]
  split
  · rfl
  · next e _ => cases e <;> simp [fetchFault, h1]

end Sys2Proof.Machine
end

