-- ==== Sys2Proof/Laws/PerInstr.lean ====
section
/-! SUPPORT. Statements about every instruction as syntax, one lemma per constructor (LAWS.json). -/

/-- An instruction is encoded in as many bytes as its table row says, 1 to 3 of them (30_encoding.md R70, R85), and its
register operands are among its operand bytes. -/
def Sys2Proof.Laws.EncodedLength.Statement (i : Sys2Proof.Instr) : Prop :=
  (∀ o, (Sys2Proof.encode o i).length = i.length) ∧ 1 ≤ i.length ∧ i.length ≤ Sys2Proof.maxInstrLength ∧
    ∀ b ∈ i.regOperands, b ∈ i.operands

theorem Sys2Proof.Laws.EncodedLength.ldi (a imm : Sys2Proof.Byte) : Sys2Proof.Laws.EncodedLength.Statement (.ldi a imm) :=
  ⟨fun _ => rfl, Nat.le_of_ble_eq_true rfl, Nat.le_of_ble_eq_true rfl, by simp [Sys2Proof.Instr.regOperands, Sys2Proof.Instr.operands]⟩

theorem Sys2Proof.Laws.EncodedLength.prn (a : Sys2Proof.Byte) : Sys2Proof.Laws.EncodedLength.Statement (.prn a) :=
  ⟨fun _ => rfl, Nat.le_of_ble_eq_true rfl, Nat.le_of_ble_eq_true rfl, by simp [Sys2Proof.Instr.regOperands, Sys2Proof.Instr.operands]⟩

theorem Sys2Proof.Laws.EncodedLength.mul (a b : Sys2Proof.Byte) : Sys2Proof.Laws.EncodedLength.Statement (.mul a b) :=
  ⟨fun _ => rfl, Nat.le_of_ble_eq_true rfl, Nat.le_of_ble_eq_true rfl, by simp [Sys2Proof.Instr.regOperands, Sys2Proof.Instr.operands]⟩

theorem Sys2Proof.Laws.EncodedLength.add (a b : Sys2Proof.Byte) : Sys2Proof.Laws.EncodedLength.Statement (.add a b) :=
  ⟨fun _ => rfl, Nat.le_of_ble_eq_true rfl, Nat.le_of_ble_eq_true rfl, by simp [Sys2Proof.Instr.regOperands, Sys2Proof.Instr.operands]⟩

theorem Sys2Proof.Laws.EncodedLength.cmp (a b : Sys2Proof.Byte) : Sys2Proof.Laws.EncodedLength.Statement (.cmp a b) :=
  ⟨fun _ => rfl, Nat.le_of_ble_eq_true rfl, Nat.le_of_ble_eq_true rfl, by simp [Sys2Proof.Instr.regOperands, Sys2Proof.Instr.operands]⟩

theorem Sys2Proof.Laws.EncodedLength.jmp (a : Sys2Proof.Byte) : Sys2Proof.Laws.EncodedLength.Statement (.jmp a) :=
  ⟨fun _ => rfl, Nat.le_of_ble_eq_true rfl, Nat.le_of_ble_eq_true rfl, by simp [Sys2Proof.Instr.regOperands, Sys2Proof.Instr.operands]⟩

theorem Sys2Proof.Laws.EncodedLength.jeq (a : Sys2Proof.Byte) : Sys2Proof.Laws.EncodedLength.Statement (.jeq a) :=
  ⟨fun _ => rfl, Nat.le_of_ble_eq_true rfl, Nat.le_of_ble_eq_true rfl, by simp [Sys2Proof.Instr.regOperands, Sys2Proof.Instr.operands]⟩

theorem Sys2Proof.Laws.EncodedLength.jne (a : Sys2Proof.Byte) : Sys2Proof.Laws.EncodedLength.Statement (.jne a) :=
  ⟨fun _ => rfl, Nat.le_of_ble_eq_true rfl, Nat.le_of_ble_eq_true rfl, by simp [Sys2Proof.Instr.regOperands, Sys2Proof.Instr.operands]⟩

theorem Sys2Proof.Laws.EncodedLength.push (a : Sys2Proof.Byte) : Sys2Proof.Laws.EncodedLength.Statement (.push a) :=
  ⟨fun _ => rfl, Nat.le_of_ble_eq_true rfl, Nat.le_of_ble_eq_true rfl, by simp [Sys2Proof.Instr.regOperands, Sys2Proof.Instr.operands]⟩

theorem Sys2Proof.Laws.EncodedLength.pop (a : Sys2Proof.Byte) : Sys2Proof.Laws.EncodedLength.Statement (.pop a) :=
  ⟨fun _ => rfl, Nat.le_of_ble_eq_true rfl, Nat.le_of_ble_eq_true rfl, by simp [Sys2Proof.Instr.regOperands, Sys2Proof.Instr.operands]⟩

theorem Sys2Proof.Laws.EncodedLength.call (a : Sys2Proof.Byte) : Sys2Proof.Laws.EncodedLength.Statement (.call a) :=
  ⟨fun _ => rfl, Nat.le_of_ble_eq_true rfl, Nat.le_of_ble_eq_true rfl, by simp [Sys2Proof.Instr.regOperands, Sys2Proof.Instr.operands]⟩

theorem Sys2Proof.Laws.EncodedLength.ret : Sys2Proof.Laws.EncodedLength.Statement .ret :=
  ⟨fun _ => rfl, Nat.le_of_ble_eq_true rfl, Nat.le_of_ble_eq_true rfl, by simp [Sys2Proof.Instr.regOperands, Sys2Proof.Instr.operands]⟩

theorem Sys2Proof.Laws.EncodedLength.hlt : Sys2Proof.Laws.EncodedLength.Statement .hlt :=
  ⟨fun _ => rfl, Nat.le_of_ble_eq_true rfl, Nat.le_of_ble_eq_true rfl, by simp [Sys2Proof.Instr.regOperands, Sys2Proof.Instr.operands]⟩
end

