-- ==== Sys2Proof/Tests/Slice0.lean ====
section
/-! SUPPORT. The model's own tests. Expected results are the spec's own vectors V<n> (95_test_vectors.md) or written out
from its encodings (30_encoding.md R72, R78); each test runs one step. Last, a witness for every statement's hypotheses. -/

namespace Sys2Proof.Machine

/-- A RUNNING state with the given registers, program counter and memory; all else as after reset. -/
def probe (regs : Vector Byte 8) (pc : PcWord) (mem : Memory) : State :=
  { State.reset with regs := regs, pc := pc, mem := mem }

/-- One observation of a result that is a next state. -/
def seen {α : Type} (f : State → α) : Result → Option α
  | .next s => some (f s)
  | .fault _ => none
  | .refused _ => none

/-! ### WellFormed: every register position is checked -/

theorem test_wf_ldi : Instr.wellFormed (.ldi 8 0) = false := by decide
theorem test_wf_prn : Instr.wellFormed (.prn 255) = false := by decide
theorem test_wf_mul_a : Instr.wellFormed (.mul 8 0) = false := by decide
theorem test_wf_mul_b : Instr.wellFormed (.mul 0 8) = false := by decide
theorem test_wf_add_a : Instr.wellFormed (.add 8 0) = false := by decide
theorem test_wf_add_b : Instr.wellFormed (.add 7 9) = false := by decide
theorem test_wf_cmp_a : Instr.wellFormed (.cmp 128 1) = false := by decide
theorem test_wf_cmp_b : Instr.wellFormed (.cmp 1 128) = false := by decide
theorem test_wf_jmp : Instr.wellFormed (.jmp 8) = false := by decide
theorem test_wf_jeq : Instr.wellFormed (.jeq 8) = false := by decide
theorem test_wf_jne : Instr.wellFormed (.jne 8) = false := by decide
theorem test_wf_push : Instr.wellFormed (.push 8) = false := by decide
theorem test_wf_pop : Instr.wellFormed (.pop 8) = false := by decide
theorem test_wf_call : Instr.wellFormed (.call 8) = false := by decide
/-- LDI's second byte is an immediate: every value is well formed (R75). -/
theorem test_wf_ldi_imm : Instr.wellFormed (.ldi 7 255) = true := by decide

/-! ### Decoding: one word per constructor, bits as in R72 and R78 -/

theorem test_decode_ldi : decode opcDefault [0b10000010, 0b00000111, 0b11110000] = .ok (.ldi 7 240, []) := by rfl
theorem test_decode_prn : decode opcDefault [0b01000111, 0b00000101] = .ok (.prn 5, []) := by rfl
theorem test_decode_mul : decode opcDefault [0b10100010, 0b00000000, 0b00000001] = .ok (.mul 0 1, []) := by rfl
theorem test_decode_add : decode opcDefault [0b10100000, 0b00000010, 0b00000011] = .ok (.add 2 3, []) := by rfl
theorem test_decode_cmp : decode opcDefault [0b10100111, 0b00000000, 0b00000010] = .ok (.cmp 0 2, []) := by rfl
theorem test_decode_jmp : decode opcDefault [0b01010100, 0b00000011] = .ok (.jmp 3, []) := by rfl
theorem test_decode_jeq : decode opcDefault [0b01010101, 0b00000010] = .ok (.jeq 2, []) := by rfl
theorem test_decode_jne : decode opcDefault [0b01010110, 0b00000011] = .ok (.jne 3, []) := by rfl
theorem test_decode_push : decode opcDefault [0b01000101, 0b00000001] = .ok (.push 1, []) := by rfl
theorem test_decode_pop : decode opcDefault [0b01000110, 0b00000010] = .ok (.pop 2, []) := by rfl
theorem test_decode_call : decode opcDefault [0b01010000, 0b00000001] = .ok (.call 1, []) := by rfl
theorem test_decode_ret : decode opcDefault [0b00010001, 0b01000111] = .ok (.ret, [71]) := by rfl
theorem test_decode_hlt : decode opcDefault [0b00000001, 0b11111111] = .ok (.hlt, [255]) := by rfl
/-- An illegal opcode is rejected by name, whatever follows (R80). -/
theorem test_decode_illegal : decode opcDefault [0x00, 0x01] = .error (.illegalOpcode 0) := by rfl
/-- A missing operand byte is named (R92). -/
theorem test_decode_short : decode opcDefault [0x82, 0x00] = .error (.missingByte 2) := by rfl
/-- The opcode table's numbering: the first byte in bits 7..0 (R85). -/
theorem test_table_word : decodeTableWord 24 0xF00782 = some (.ldi 7 240) := by rfl
theorem test_table_word_hlt : decodeTableWord 8 0x01 = some .hlt := by rfl
theorem test_assembly : (Instr.ldi 7 240).assembly = "LDI R7 240" := by decide

/-! ### Configuration (R7): the types of State have the widths and counts it names -/

theorem test_config_widths : Byte = BitVec Config.cellBits ∧ RegWord = BitVec Config.xlen ∧ PcWord = BitVec Config.pcBits ∧
    OutWord = BitVec Config.outBits ∧ RegIdx = Fin Config.nReg := ⟨rfl, rfl, rfl, rfl, rfl⟩
/-- The narrowing of the policy that is not taken, at the boundary R114 names. -/
theorem test_overflow_policies : narrow .wrap 256 = 0 ∧ narrow .saturate 256 = 255 ∧ addBytes 128 128 = 0 := by decide

/-! ### The step, by the spec's vectors -/

/-- V1: the empty image. -/
theorem test_V1 : seen (fun t => (t.st, t.fcause, t.finfo, t.pc)) (step State.reset) = some (.faulted, 1, 0, 0) := by decide
/-- V2: an opcode outside the table. -/
theorem test_V2 : seen (fun t => (t.fcause, t.finfo, t.pc)) (step (probe (Vector.replicate 8 0) 5 [(5, 0xFF)]))
    = some (1, 255, 5) := by decide
/-- V3: a fetch at 256. -/
theorem test_V3 : seen (fun t => (t.fcause, t.finfo, t.pc)) (step (probe (Vector.replicate 8 0) 256 [])) = some (2, 256, 256) := by
  decide
/-- V4: an operand beyond Memory. -/
theorem test_V4 : seen (fun t => (t.fcause, t.finfo, t.out)) (step (probe (Vector.replicate 8 0) 255 [(255, 0x47)]))
    = some (2, 256, []) := by decide
/-- V5: the second operand beyond Memory. -/
theorem test_V5 : seen (fun t => (t.fcause, t.finfo, t.pc)) (step (probe (Vector.replicate 8 0) 254 [(254, 0x82)]))
    = some (2, 256, 254) := by decide
/-- V9: no step exists in HALTED or FAULTED. -/
theorem test_V9 : seen (fun t => t.pc) (step { State.reset with st := .halted }) = none ∧
    seen (fun t => t.pc) (step { State.reset with st := .faulted }) = none := by decide

/-- V8: LDI ending at 255. -/
theorem test_V8 : seen (fun t => (t.regs[0], t.pc, t.st))
    (step (probe (Vector.replicate 8 0) 253 [(253, 0x82), (255, 7)])) = some (7, 256, .running) := by decide
/-- V10: LDI with a bad register operand. -/
theorem test_V10 : seen (fun t => (t.fcause, t.finfo, t.pc))
    (step (probe (Vector.replicate 8 0) 0 [(0, 0x82), (1, 8), (2, 1)])) = some (3, 8, 0) := by decide
/-- V6: PRN at 254. -/
theorem test_V6 : seen (fun t => (t.out, t.pc)) (step (probe #v[254, 0, 0, 0, 0, 0, 0, 0] 254 [(254, 0x47)]))
    = some ([254], 256) := by decide
/-- V15: PRN of 255. -/
theorem test_V15 : seen (fun t => (t.out, t.pc)) (step (probe #v[0, 0, 0, 0, 0, 255, 0, 0] 4 [(4, 0x47), (5, 5)]))
    = some ([255], 6) := by decide
/-- V28: MUL emits and stores nothing. -/
theorem test_V28 : seen (fun t => (t.out, t.pc, t.regs[0]))
    (step (probe #v[8, 9, 0, 0, 0, 0, 0, 0] 6 [(6, 0xA2), (8, 1)])) = some ([72], 9, 8) := by decide
/-- V29: the product is exact. -/
theorem test_V29 : seen (fun t => t.out) (step (probe #v[255, 0, 0, 0, 0, 0, 0, 0] 0 [(0, 0xA2)])) = some [65025] := by decide
/-- V22: ADD of a register to itself, doubled modulo 256. -/
theorem test_V22 : seen (fun t => t.regs[2])
    (step (probe #v[0, 0, 128, 0, 0, 0, 0, 0] 0 [(0, 0xA0), (1, 2), (2, 2)])) = some 0 := by decide
/-- V27: the first bad operand is reported. -/
theorem test_V27 : seen (fun t => (t.fcause, t.finfo))
    (step (probe (Vector.replicate 8 0) 0 [(0, 0xA0), (1, 8), (2, 9)])) = some (3, 8) := by decide
/-- V34: CMP is unsigned. -/
theorem test_V34 : seen (fun t => t.flags) (step (probe #v[255, 0, 0, 0, 0, 0, 0, 0] 0 [(0, 0xA7), (2, 1)]))
    = some { l := false, g := true, e := false } := by decide
/-- V35. -/
theorem test_V35 : seen (fun t => t.flags) (step (probe #v[127, 128, 0, 0, 0, 0, 0, 0] 0 [(0, 0xA7), (2, 1)]))
    = some { l := true, g := false, e := false } := by decide
/-- V42: JMP to 255. -/
theorem test_V42 : seen (fun t => t.pc) (step (probe #v[255, 0, 0, 0, 0, 0, 0, 0] 3 [(3, 0x54)])) = some 255 := by decide
/-- V43, V44: JEQ taken and not taken. -/
theorem test_V43_V44 :
    let s := probe #v[0, 0, 40, 0, 0, 0, 0, 0] 9 [(9, 0x55), (10, 2)]
    seen (fun t => t.pc) (step { s with flags := { l := false, g := false, e := true } }) = some 40 ∧
    seen (fun t => t.pc) (step { s with flags := { l := false, g := true, e := false } }) = some 11 := by decide
/-- V49: a bad operand faults though the jump is not taken. -/
theorem test_V49 : seen (fun t => (t.fcause, t.finfo, t.pc)) (step (probe (Vector.replicate 8 0) 9 [(9, 0x55), (10, 9)]))
    = some (3, 9, 9) := by decide
/-- V46: JNE before any CMP is taken. V47: not taken. -/
theorem test_V46_V47 : seen (fun t => t.pc) (step (probe #v[9, 0, 0, 0, 0, 0, 0, 0] 5 [(5, 0x56)])) = some 9 ∧
    seen (fun t => t.pc) (step { probe #v[0, 0, 0, 12, 0, 0, 0, 0] 20 [(20, 0x56), (21, 3)] with
      flags := { l := false, g := false, e := true } }) = some 22 := by decide
/-- V53: PUSH R7 stores the decremented pointer. -/
theorem test_V53 : seen (fun t => (t.regs[7], t.mem.read 239, t.pc))
    (step (probe #v[0, 0, 0, 0, 0, 0, 0, 240] 3 [(3, 0x45), (4, 7)])) = some (239, 239, 5) := by decide
/-- V52: StackOverflow, no wrap. -/
theorem test_V52 : seen (fun t => (t.fcause, t.finfo, t.regs[7], t.mem.read 255, t.pc))
    (step (probe #v[1, 0, 0, 0, 0, 0, 0, 0] 3 [(3, 0x45)])) = some (4, 0, 0, 0, 3) := by decide
/-- V56: POP R7 increments the popped byte. -/
theorem test_V56 : seen (fun t => (t.regs[7], t.pc))
    (step (probe #v[0, 0, 0, 0, 0, 0, 0, 239] 8 [(8, 0x46), (9, 7), (239, 99)])) = some (100, 10) := by decide
/-- V54: StackUnderflow leaves the destination. -/
theorem test_V54 : seen (fun t => (t.fcause, t.finfo, t.regs[0], t.regs[7]))
    (step (probe #v[6, 0, 0, 0, 0, 0, 0, 255] 3 [(3, 0x46)])) = some (5, 255, 6, 255) := by decide
/-- V62: CALL R7 goes to the decremented pointer. -/
theorem test_V62 : seen (fun t => (t.regs[7], t.mem.read 239, t.pc))
    (step (probe #v[0, 0, 0, 0, 0, 0, 0, 240] 3 [(3, 0x50), (4, 7)])) = some (239, 5, 239) := by decide
/-- V60: a return address of 256. -/
theorem test_V60 : seen (fun t => (t.fcause, t.finfo, t.regs[7], t.mem.read 9))
    (step (probe #v[0, 17, 0, 0, 0, 0, 0, 10] 254 [(254, 0x50), (255, 1)])) = some (2, 256, 10, 0) := by decide
/-- V63: RET. -/
theorem test_V63 : seen (fun t => (t.pc, t.regs[7], t.mem.read 239))
    (step (probe #v[0, 0, 0, 0, 0, 0, 0, 239] 26 [(26, 0x11), (239, 11)])) = some (11, 240, 11) := by decide
/-- V64: RET at 255. -/
theorem test_V64 : seen (fun t => (t.fcause, t.finfo, t.pc))
    (step (probe #v[0, 0, 0, 0, 0, 0, 0, 255] 3 [(3, 0x11)])) = some (5, 255, 3) := by decide
/-- V70: HLT. V7: HLT at 255 halts without a fault. -/
theorem test_V70_V7 : seen (fun t => (t.st, t.pc)) (step (probe (Vector.replicate 8 0) 9 [(9, 0x01)])) = some (.halted, 10) ∧
    seen (fun t => (t.st, t.pc)) (step (probe (Vector.replicate 8 0) 255 [(255, 0x01)])) = some (.halted, 256) := by decide

/-- V81: the launch with an image and another `SP_INIT`. -/
theorem test_V81 : (State.launch 244 [0x82, 0x00, 0x08]).map (fun s => (s.regs[7], s.regs[0], s.mem))
    = some (244, 0, [(0, 0x82), (2, 0x08)]) := by decide
/-- The host's placement runs the placed instruction as the first after reset (R180, V13). -/
theorem test_placed : seen (fun t => (t.regs[7], t.pc)) (step (State.reset.withFetchWord 24 0xF00782)) = some (240, 3) := by decide
/-- The status byte is 00000LGE (R33). -/
theorem test_flag_byte : ({ l := true, g := false, e := true } : Flags).byte = 0b00000101 := by decide

/-! ### Witnesses: for every statement with hypotheses, a state and operands that meet them -/

/-- A state with a stack, data in memory and a free choice of instruction bytes at `pc`. -/
def ready (pc : PcWord) (sp : Byte) (bytes : List Byte) : State :=
  { State.reset with
    regs := #v[1, 17, 40, 12, 9, 255, 128, sp]
    pc := pc
    mem := Memory.writeBytes [(200, 30), (239, 11)] pc.toNat bytes }

theorem witness_DecodeOfEncodeIsIdentity : opcDefault.Admissible := opcDefault_admissible
theorem witness_EncodeOfDecodeIsIdentity : decode opcDefault [0x46, 255, 3] = .ok (.pop 255, [3]) := by rfl
theorem witness_OpcodeFixesLength : opcDefault.Admissible ∧ Mnemonic.arity .ldi ≤ [(1 : Byte), 2].length ∧
    [(1 : Byte)].length < Mnemonic.arity .ldi := ⟨opcDefault_admissible, by decide, by decide⟩
theorem witness_OtherOpcodesAreIllegal : opcDefault.Admissible ∧ (∀ m, opcDefault m ≠ 0xFF) ∧
    (ready 255 240 [0xFF]).st = .running ∧ (ready 255 240 [0xFF]).pc.toNat ≤ 255 ∧
    (ready 255 240 [0xFF]).mem.read (ready 255 240 [0xFF]).pc.toNat = 0xFF :=
  ⟨opcDefault_admissible, fun m => by cases m <;> decide, rfl, by decide, by decide⟩
theorem witness_LaunchStateHoldsImage : (List.replicate 256 (7 : Byte)).length ≤ 256 ∧
    256 < (List.replicate 257 (7 : Byte)).length ∧ (7 : RegIdx) ≠ 6 :=
  ⟨by simp only [List.length_replicate]; decide, by simp only [List.length_replicate]; decide, by decide⟩
theorem witness_EmptyImageRaisesIllegalInstruction : opcDefault.Admissible := opcDefault_admissible
theorem witness_ResetAndLaunchMeetInvariant : (State.launch 244 [0x82, 0x00, 0x08]).isSome = true := by decide
theorem witness_StepKeepsMachineState : (ready 253 240 [0xA7, 0, 1]).Inv ∧
    seen (fun t => t.pc) (step (ready 253 240 [0xA7, 0, 1])) = some 256 :=
  ⟨⟨by decide, by decide, by unfold Flags.AtMostOne; decide,
    ⟨fun _ => ⟨rfl, rfl⟩, fun h => by cases h⟩, fun v hv => by cases hv⟩, by decide⟩
theorem witness_StepRunsDecodedInstruction : (ready 253 240 [0x82, 7, 9]).st = .running ∧
    decode opcDefault (ready 253 240 [0x82, 7, 9]).window = .ok (.ldi 7 9, []) := ⟨rfl, by rfl⟩
theorem witness_StepRunsExactlyTheFetchedHandler :
    opcDefault.Admissible ∧ (ready 253 240 [0x82, 7, 9]).st = .running ∧
    (ready 253 240 [0x82, 7, 9]).pc.toNat + (Instr.ldi 7 9).length ≤ 256 ∧
    ∀ k (h : k < (encode opcDefault (.ldi 7 9)).length),
      (ready 253 240 [0x82, 7, 9]).mem.read ((ready 253 240 [0x82, 7, 9]).pc.toNat + k)
        = (encode opcDefault (.ldi 7 9))[k] :=
  ⟨opcDefault_admissible, rfl, by decide, by decide⟩
theorem witness_StepExistsExactlyWhenRunning : ({ State.reset with st := .halted } : State).Terminal ∧
    (ready 40 240 [0x54, 2]).st = .running ∧ fetch opcDefault (ready 40 240 [0x54, 2]) = .ok (.jmp (regByte 2)) ∧
    ((ready 40 240 [0x54, 2]).reg 2).toNat = (ready 40 240 [0x54, 2]).pc.toNat :=
  ⟨by unfold State.Terminal; decide, rfl, by rfl, by decide⟩
theorem witness_StepHasThreeResults : (ready 40 240 [0x01]).st = .running := rfl
/-- One witness per row of the fault table and per alternative of its conditions (V2, V3, V4, V60, V10, V52, V54, V64). -/
theorem witness_FaultsArePreciseAndCoded :
    seen (fun t => (t.st, t.fcause)) (step (ready 255 240 [0xFF])) = some (.faulted, 1) ∧
    seen (fun t => (t.st, t.fcause)) (step (ready 256 240 [])) = some (.faulted, 2) ∧
    seen (fun t => (t.st, t.fcause)) (step (ready 255 240 [0x47])) = some (.faulted, 2) ∧
    seen (fun t => (t.st, t.fcause)) (step (ready 254 240 [0x50, 1])) = some (.faulted, 2) ∧
    seen (fun t => (t.st, t.fcause)) (step (ready 254 240 [0x47, 8])) = some (.faulted, 3) ∧
    seen (fun t => (t.st, t.fcause)) (step (ready 0 0 [0x45, 0])) = some (.faulted, 4) ∧
    seen (fun t => (t.st, t.fcause)) (step (ready 0 0 [0x50, 0])) = some (.faulted, 4) ∧
    seen (fun t => (t.st, t.fcause)) (step (ready 0 255 [0x11])) = some (.faulted, 5) ∧
    seen (fun t => (t.st, t.fcause)) (step (ready 0 255 [0x46, 0])) = some (.faulted, 5) ∧
    seen (fun t => (t.st, t.fcause)) (step (ready 0 9 [0x46, 7, 0, 0, 0, 0, 0, 0, 0, 255])) = some (.faulted, 5) := by decide
/-- One witness per test of R159, in its order, and one for none. -/
theorem witness_FaultTestsHaveTheSpecsOrder :
    let first := fun s : State => firstFault s (decodeOpcode opcDefault (s.mem.read s.pc.toNat))
    first (ready 256 240 []) = some (.addressError, 256) ∧
    first (ready 255 240 [0xFF]) = some (.illegalInstruction, 255) ∧
    first (ready 255 240 [0x45]) = some (.addressError, 256) ∧
    first (ready 254 240 [0xA0, 9]) = some (.addressError, 256) ∧
    first (ready 254 0 [0x50, 9]) = some (.registerIndexError, 9) ∧
    first (ready 0 0 [0xA0, 7, 8]) = some (.registerIndexError, 8) ∧
    first (ready 254 0 [0x50, 1]) = some (.stackOverflow, 0) ∧
    first (ready 254 255 [0x46, 0]) = some (.stackUnderflow, 255) ∧
    first (ready 254 1 [0x50, 1]) = some (.addressError, 256) ∧
    first (ready 253 1 [0x50, 1]) = none := by decide
theorem witness_FetchBeyondMemoryRaisesAddressError : opcDefault.Admissible ∧
    (ready 256 240 []).pc.toNat = 256 ∧
    ((ready 255 240 [0x47]).pc.toNat = 255 ∧ (ready 255 240 [0x47]).mem.read 255 = opcDefault .prn ∧
      1 ≤ Mnemonic.arity .prn) ∧
    ((ready 254 240 [0x82, 0]).pc.toNat = 254 ∧ (ready 254 240 [0x82, 0]).mem.read 254 = opcDefault .ldi ∧
      Mnemonic.arity .ldi = 2) :=
  ⟨opcDefault_admissible, by decide, by decide, by decide⟩
theorem witness_UnsupportedOperationIsNeverRaised :
    seen (fun t => t.fcause) (step { ready 9 240 [0x01] with fcause := 6 }) = some 6 := by decide
/-- No transfer at its boundary (V8), a transfer taken, a transfer not taken at 254. -/
theorem witness_ProgramCounterAdvancesByLength :
    (fetch opcDefault (ready 253 240 [0x82, 0, 7]) = .ok (.ldi 0 7) ∧ Instr.isTransfer (.ldi 0 7) = false ∧
      seen (fun t => (t.st, t.pc)) (step (ready 253 240 [0x82, 0, 7])) = some (.running, 256)) ∧
    (fetch opcDefault (ready 9 240 [0x54, 5]) = .ok (.jmp 5) ∧ Instr.isTransfer (.jmp 5) = true ∧
      seen (fun t => (t.st, t.pc)) (step (ready 9 240 [0x54, 5])) = some (.running, 255)) ∧
    (fetch opcDefault (ready 254 240 [0x55, 5]) = .ok (.jeq 5) ∧
      seen (fun t => (t.st, t.pc)) (step (ready 254 240 [0x55, 5])) = some (.running, 256)) :=
  ⟨⟨by rfl, rfl, by decide⟩, ⟨by rfl, rfl, by decide⟩, by rfl, by decide⟩
/-- The bad operand bytes at both ends of their range, and the last register, for all instructions with operands. -/
theorem witness_operand_bytes : 7 < (8 : Byte).toNat ∧ 7 < (255 : Byte).toNat ∧ regByte 7 = 7 ∧ regByte 0 = 0 := by decide
theorem witness_LdiLoadsImmediate : 7 < (8 : Byte).toNat ∧ opcDefault.Admissible := ⟨by decide, opcDefault_admissible⟩
theorem witness_PrnEmitsRegister : 7 < (8 : Byte).toNat := by decide
theorem witness_MulEmitsExactProduct : 7 < (8 : Byte).toNat := by decide
theorem witness_AddWrapsModulo256 : 7 < (8 : Byte).toNat := by decide
theorem witness_CmpSetsExactlyOneFlag : 7 < (8 : Byte).toNat ∧ opcDefault.Admissible := ⟨by decide, opcDefault_admissible⟩
theorem witness_JmpGoesToRegister : 7 < (8 : Byte).toNat ∧ opcDefault.Admissible := ⟨by decide, opcDefault_admissible⟩
theorem witness_JeqJumpsWhenEqual : ({ State.reset with flags := { l := false, g := false, e := true } } : State).flags.e = true ∧
    State.reset.flags.e = false ∧ 7 < (8 : Byte).toNat ∧ opcDefault.Admissible :=
  ⟨rfl, rfl, by decide, opcDefault_admissible⟩
theorem witness_JneJumpsWhenNotEqual : State.reset.flags.e = false ∧
    ({ State.reset with flags := { l := false, g := false, e := true } } : State).flags.e = true ∧
    7 < (8 : Byte).toNat ∧ opcDefault.Admissible := ⟨rfl, rfl, by decide, opcDefault_admissible⟩
theorem witness_PushStoresBelowStackPointer : (ready 9 1 [0x45, 7]).mem.wf = true ∧ (ready 9 1 [0x45, 7]).reg 7 ≠ 0 ∧
    (ready 9 255 [0x45, 7]).reg 7 ≠ 0 ∧ (ready 9 0 [0x45, 7]).reg 7 = 0 ∧ 7 < (8 : Byte).toNat := by decide
theorem witness_PopLoadsAtStackPointer : ((0 : RegIdx) ≠ 7 ∧ (ready 9 254 []).reg 7 ≠ 255 ∧ (ready 9 255 []).reg 7 = 255) ∧
    (let s := ready 9 200 []; s.mem.read (s.reg 7).toNat ≠ 255) ∧
    (let s := ready 9 200 [255]; let u := { s with regs := s.regs.set 7 9 }; u.mem.read (u.reg 7).toNat = 255) ∧
    7 < (8 : Byte).toNat := by decide
theorem witness_CallStoresReturnAddress : (ready 253 1 [0x50, 1]).mem.wf = true ∧
    ((ready 253 1 [0x50, 1]).reg 7 ≠ 0 ∧ (ready 253 1 [0x50, 1]).pc.toNat + 2 ≤ 255) ∧
    (ready 253 0 [0x50, 1]).reg 7 = 0 ∧
    ((ready 254 1 [0x50, 1]).reg 7 ≠ 0 ∧ 255 < (ready 254 1 [0x50, 1]).pc.toNat + 2) ∧ 7 < (8 : Byte).toNat := by decide
theorem witness_RetReturnsToStackedAddress : (ready 9 254 []).reg 7 ≠ 255 ∧ (ready 9 255 []).reg 7 = 255 := by decide
theorem witness_HltHalts : opcDefault.Admissible ∧ (ready 255 240 [0x01]).st = .running ∧
    (ready 255 240 [0x01]).pc.toNat ≤ 255 ∧
    (ready 255 240 [0x01]).mem.read (ready 255 240 [0x01]).pc.toNat = opcDefault .hlt :=
  ⟨opcDefault_admissible, rfl, by decide, by decide⟩
theorem witness_BadRegisterOperandFaults : ((Instr.push 8).regOperands = [8] ∧ 7 < (8 : Byte).toNat) ∧
    ((Instr.add 7 255).regOperands = [7, 255] ∧ (7 : Byte).toNat ≤ 7 ∧ 7 < (255 : Byte).toNat) ∧
    (Instr.wellFormed .ret = true ∧ State.reset.fcause ≠ 3 ∧
      seen (fun t => t.fcause) (exec .ret (ready 9 255 [])) = some 5) := by decide
theorem witness_OtherRegistersUnchanged : Instr.mayWriteReg (.add 1 2) 2 = false ∧
    seen (fun t => t.reg 2) (exec (.add 1 2) (ready 9 240 [])) = some 40 := by decide
theorem witness_OtherMemoryUnchanged : Instr.storeAddr (.push 1) (ready 9 240 []) = some 239 ∧
    seen (fun t => t.mem.read 239) (exec (.push 1) (ready 9 240 [])) = some 17 ∧
    Instr.storeAddr (.add 1 2) (ready 9 240 []) = none ∧
    seen (fun t => t.mem.read 239) (exec (.add 1 2) (ready 9 240 [])) = some 11 := by decide
theorem witness_OtherSpecialStateUnchanged :
    seen (fun t => (t.flags, t.out, t.st)) (exec (.ldi 1 2) (ready 9 240 [])) = some (Config.flReset, [], .running) ∧
    (∀ a b, Instr.ldi 1 2 ≠ .cmp a b) ∧ (∀ a, Instr.ldi 1 2 ≠ .prn a) ∧ (∀ a b, Instr.ldi 1 2 ≠ .mul a b) := by
  refine ⟨by decide, fun _ _ h => ?_, fun _ h => ?_, fun _ _ h => ?_⟩ <;> cases h
theorem witness_FlagsChangeOnlyByCmp :
    seen (fun t => t.flags) (step (ready 9 240 [0xA7, 0, 1])) = some { l := true, g := false, e := false } ∧
    seen (fun t => t.flags) (step (ready 9 240 [0xA0, 0, 1])) = some Config.flReset := by decide
/-- A JEQ with FL.E kept, and an instruction that is neither JEQ nor JNE. -/
theorem witness_OnlyEqualFlagIsRead :
    (seen (fun t => t.pc) (step (ready 9 240 [0x55, 2])) = some 11 ∧ false = (ready 9 240 [0x55, 2]).flags.e) ∧
    (seen (fun t => t.pc) (step (ready 9 240 [0xA0, 0, 1])) = some 12 ∧
      ∀ a, fetch opcDefault (ready 9 240 [0xA0, 0, 1]) ≠ .ok (.jeq a) ∧
        fetch opcDefault (ready 9 240 [0xA0, 0, 1]) ≠ .ok (.jne a)) := by
  have hf : fetch opcDefault (ready 9 240 [0xA0, 0, 1]) = .ok (.add 0 1) := by rfl
  refine ⟨by decide, by decide, fun a => ⟨fun h => ?_, fun h => ?_⟩⟩ <;> (rw [hf] at h; cases h)
theorem witness_OutputIsAppendedAndNeverRead : seen (fun t => t.out) (step (ready 9 240 [0x47, 1])) = some [17] ∧
    seen (fun t => t.out) (step (ready 9 240 [0x01])) = some [] := by decide
theorem witness_FaultRegistersAreNeverRead : seen (fun t => t.st) (step (ready 9 240 [0x01])) = some .halted ∧
    seen (fun t => t.st) (step (ready 9 240 [0xFF])) = some .faulted := by decide
theorem witness_StoreThenLoad : (ready 9 240 [0x47, 1]).mem.wf = true ∧ (0 : Byte) ≠ 255 := by decide
theorem witness_CanonicalMemoryIsUnique : Memory.wf [(0, 1), (255, 2)] = true ∧
    ∀ a, a < 256 → Memory.read [(0, 1), (255, 2)] a = Memory.read (Memory.write [(0, 1)] 255 2) a :=
  ⟨by decide, fun _ _ => rfl⟩
/-- The hypotheses, for PUSH (P7), PUSH R7 and CALL R7, which goes to the very byte it stores. -/
theorem witness_PushedByteIsFetchedNext : opcDefault.Admissible ∧
    (let s := ready 6 9 [0x45, 0]
     s.mem.wf = true ∧ s.st = .running ∧ s.reg 7 ≠ 0 ∧ s.pushAddr.toNat = s.pc.toNat + 2 ∧ s.reg 0 = opcDefault .hlt) ∧
    fetch opcDefault (ready 6 9 [0x45, 0]) = .ok (.push (regByte 0)) ∧
    fetch opcDefault (ready 6 9 [0x45, 7]) = .ok (.push (regByte 7)) ∧
    fetch opcDefault (ready 15 240 [0x50, 7]) = .ok (.call (regByte 7)) ∧ (17 : Byte).toNat = 15 + 2 :=
  ⟨opcDefault_admissible, by decide, by rfl, by rfl, by rfl, rfl⟩
/-- The next step's clauses: the pushed byte is an opcode (HLT), an operand (of the PRN after the PUSH), no opcode, and the
opcode of an instruction that ends beyond 255; and CALL R7 from 15 stores 17, RET's opcode, where it goes. -/
theorem witness_PushedByteIsFetchedNext_next :
    let two := fun s : State => match step s with
      | .next t => step t
      | .fault f => .fault f
      | .refused r => .refused r
    seen (fun t => (t.st, t.pc)) (two (ready 6 9 [0x45, 0])) = some (.halted, 9) ∧
    seen (fun t => t.out) (two (ready 6 10 [0x45, 0, 0x47])) = some [17] ∧
    seen (fun t => (t.fcause, t.finfo)) (two (ready 6 9 [0x45, 4])) = some (1, 9) ∧
    seen (fun t => (t.fcause, t.finfo, t.pc)) (two { ready 252 255 [0x45, 0] with
      regs := #v[0x82, 0, 0, 0, 0, 0, 0, 255] }) = some (2, 256, 254) ∧
    seen (fun t => (t.pc, t.reg 7)) (two (ready 15 240 [0x50, 7])) = some (17, 240) := by decide
theorem witness_PushThenPopRestores : (ready 9 1 []).mem.wf = true ∧ (0 : RegIdx) ≠ 7 ∧ (6 : RegIdx) ≠ 7 ∧
    (ready 9 1 []).reg 7 ≠ 0 := by decide
theorem witness_CallThenRetResumes : (ready 253 1 []).mem.wf = true ∧ (ready 253 1 []).reg 7 ≠ 0 ∧
    (ready 253 1 []).pc.toNat + 2 ≤ 255 ∧
    seen (fun t => (t.reg 7, t.mem.read (t.reg 7).toNat)) (exec (.call (regByte 1)) (ready 253 1 [])) = some (0, 255) := by
  decide
theorem witness_NestedCallsReturnInReverseOrder : (ready 9 240 []).mem.wf = true ∧ (ready 9 240 []).st = .running ∧
    seen (fun t => (t.st, t.reg 7)) (execAll ([1, 2, 7].map fun r => .call (regByte r)) (ready 9 240 []))
      = some (.running, 237) := by decide
theorem witness_PlacedWordRunsNext : (ready 254 240 []).mem.wf = true ∧ decodeTableWord 16 0x0545 = some (.push 5) :=
  ⟨by decide, by rfl⟩

end Sys2Proof.Machine
end

section
/-! The meanings read backwards: an effect or a trap of an instruction is what `exec` answers, and what `stepWith`
answers, said once as an equivalence. -/

namespace Sys2Proof.Machine

theorem regByte_in_range (r : RegIdx) : (regByte r).toNat < Config.nReg := by
  rw [regByte_toNat]
  exact r.isLt

/-- One register operand that is the bad one of an operand list is a fault (R154). -/
theorem withReg_badRegOperand {a b : Byte} (h : [a].find? (fun b => decide (Config.nReg ≤ b.toNat)) = some b) (s : State)
    (k : RegIdx → Result) : withReg a s k = .next (s.raise .registerIndexError (b.setWidth 16)) := by
  rcases byte_isReg_or_bad a with ⟨r, rfl⟩ | ha
  · simp [regByte_in_range r] at h
  · have ha' : Config.nReg ≤ a.toNat := ha
    obtain rfl : a = b := by simpa [ha'] using h
    exact withReg_bad ha s k

/-- Of two register operands the first bad one is the fault (R154, R159). -/
theorem withRegs_badRegOperand {a c b : Byte}
    (h : [a, c].find? (fun b => decide (Config.nReg ≤ b.toNat)) = some b) (s : State) (k : RegIdx → RegIdx → Result) :
    withRegs a c s k = .next (s.raise .registerIndexError (b.setWidth 16)) := by
  rcases byte_isReg_or_bad a with ⟨r, rfl⟩ | ha
  · rw [List.find?_cons_of_neg (by simpa using regByte_in_range r)] at h
    exact (withReg_regByte r s _).trans (withReg_badRegOperand h s _)
  · have ha' : Config.nReg ≤ a.toNat := ha
    obtain rfl : a = b := by simpa [ha'] using h
    exact withReg_bad ha s _

/-- The first bad register operand is the one every handler reports (R154). -/
theorem exec_of_badRegOperand {i : Instr} {b : Byte} (h : i.badRegOperand = some b) (s : State) :
    exec i s = .next (s.raise .registerIndexError (b.setWidth 16)) := by
  cases i
  case ldi | prn | jmp | jeq | jne | push | pop | call => exact withReg_badRegOperand h s _
  case mul | add | cmp => exact withRegs_badRegOperand h s _
  case ret | hlt => cases h

/-- The converse of `exec_next` for an effect. -/
theorem exec_of_effect {i : Instr} {s t : State} (h : Effect i s t) : exec i s = .next t := by
  cases h
  case ldi | prn | jmp | jeq | jne => exact withReg_regByte _ _ _
  case mul | add | cmp => exact withRegs_regByte _ _ _ _
  case push h0 => exact (withReg_regByte _ _ _).trans (withStackRoom_pass h0 _)
  case pop h0 => exact (withReg_regByte _ _ _).trans (withStackTop_pass h0 _ _)
  case call h0 h1 =>
    exact (withReg_regByte _ _ _).trans ((withStackRoom_pass h0 _).trans (withReturnAddr_pass h1 _))
  case ret h0 => exact withStackTop_pass h0 _ _
  case hlt => rfl

/-- The converse of `exec_next` for a trap. -/
theorem exec_of_trap {i : Instr} {s : State} {f : CoreFault} {info : InfoWord} (h : Trap i s f info) :
    exec i s = .next (s.raise f info) := by
  cases h
  case reg hb => exact exec_of_badRegOperand hb s
  case pushOverflow h0 | callOverflow h0 => exact (withReg_regByte _ _ _).trans (withStackRoom_fault h0 _)
  case popUnderflow h0 => exact (withReg_regByte _ _ _).trans (withStackTop_fault h0 _ _)
  case retUnderflow h0 => exact withStackTop_fault h0 _ _
  case returnAddr h0 h1 =>
    exact (withReg_regByte _ _ _).trans ((withStackRoom_pass h0 _).trans (withReturnAddr_fault h1 _))

/-- The fault a step takes: the fetch's, or the trap of the instruction fetched. -/
inductive StepFault (o : OpcodeMap) (s : State) (f : CoreFault) (info : InfoWord) : Prop
  | fetch : fetch o s = .error (f, info) → StepFault o s f info
  | trap {i} : Machine.fetch o s = .ok i → Trap i s f info → StepFault o s f info

/-- A step in RUNNING is the effect of the fetched instruction or one fault; and each of these is a step. -/
theorem stepWith_next_iff {o : OpcodeMap} {s t : State} :
    stepWith o s = .next t ↔ s.st = .running ∧
      ((∃ i, fetch o s = .ok i ∧ Effect i s t) ∨ ∃ f info, StepFault o s f info ∧ t = s.raise f info) := by
  constructor
  · intro h
    obtain ⟨hr, ⟨i, hi, he⟩ | ⟨f, info, hf, rfl⟩⟩ := stepWith_next h
    · rcases exec_next he with he | ⟨f, info, ht, rfl⟩
      · exact ⟨hr, .inl ⟨i, hi, he⟩⟩
      · exact ⟨hr, .inr ⟨f, info, .trap hi ht, rfl⟩⟩
    · exact ⟨hr, .inr ⟨f, info, .fetch hf, rfl⟩⟩
  · rintro ⟨hr, ⟨i, hi, he⟩ | ⟨f, info, hf | ⟨hi, ht⟩, rfl⟩⟩
    · rw [stepWith_ok hr hi, exec_of_effect he]
    · exact stepWith_error hr hf
    · rw [stepWith_ok hr hi, exec_of_trap ht]

end Sys2Proof.Machine
end

section
/-! What an effect writes and what it leaves alone, one lemma per part of the state (10_state.md R20). -/

namespace Sys2Proof.Machine

theorem State.reg_setSp_other (s : State) {r : RegIdx} (v : Byte) (h : Config.spIndex ≠ r) :
    (s.setSp v).reg r = s.reg r :=
  State.reg_setReg_other s v h

/-- A conditional jump writes `pc` alone, taken or not. -/
@[simp] theorem State.ite_setPc_advance (s : State) (c : Bool) (p : PcWord) (n : Nat) :
    (if c then s.setPc p else s.advance n) = s.setPc (if c then p else s.pc + BitVec.ofNat _ n) := by
  cases c <;> rfl

@[simp] theorem State.ite_advance_setPc (s : State) (c : Bool) (p : PcWord) (n : Nat) :
    (if c then s.advance n else s.setPc p) = s.setPc (if c then s.pc + BitVec.ofNat _ n else p) := by
  cases c <;> rfl

variable {i : Instr} {s t : State}

theorem Effect.reg_of_not_mayWriteReg (h : Effect i s t) {r : RegIdx} (hr : i.mayWriteReg r = false) :
    t.reg r = s.reg r := by
  cases h
  case prn | mul | cmp | jmp | hlt => rfl
  case jeq | jne => simp
  case ldi q imm | add q _ =>
    have hq : q ≠ r := by simpa [Instr.mayWriteReg] using hr
    exact State.reg_setReg_other s _ hq
  case push | call | ret =>
    have hsp : r ≠ Config.spIndex := by simpa [Instr.mayWriteReg] using hr
    exact State.reg_setSp_other _ _ hsp.symm
  case pop q _ =>
    have hqs : q ≠ r ∧ r ≠ Config.spIndex := by simpa [Instr.mayWriteReg] using hr
    obtain ⟨hq, hsp⟩ := hqs
    rw [State.reg_advance, State.reg_setSp_other _ _ hsp.symm, State.reg_setReg_other s _ hq]

/-- Memory changes by one write at the store address, or not at all. -/
theorem Effect.mem_eq (h : Effect i s t) :
    (i.storeAddr s = none ∧ t.mem = s.mem) ∨
      ∃ a v, i.storeAddr s = some a ∧ t.mem = s.mem.write a.toNat v := by
  cases h
  case push | call => exact .inr ⟨_, _, rfl, rfl⟩
  case jeq | jne => exact .inl ⟨rfl, by simp⟩
  case ldi | prn | mul | add | cmp | jmp | pop | ret | hlt => exact .inl ⟨rfl, rfl⟩

theorem Effect.flags_eq (h : Effect i s t) :
    t.flags = s.flags ∨ ∃ ra rb, i = .cmp (regByte ra) (regByte rb) ∧
      t.flags = compareBytes (s.reg ra) (s.reg rb) := by
  cases h
  case cmp ra rb => exact .inr ⟨ra, rb, rfl, rfl⟩
  case jeq | jne => exact .inl (by simp)
  case ldi | prn | mul | add | jmp | push | pop | call | ret | hlt => exact .inl rfl

/-- At most one value is emitted: PRN's register or MUL's product. -/
theorem Effect.out_eq (h : Effect i s t) :
    t.out = s.out ∨
    (∃ r, i = .prn (regByte r) ∧ t.out = s.out ++ [(s.reg r).setWidth 16]) ∨
    ∃ ra rb, i = .mul (regByte ra) (regByte rb) ∧ t.out = s.out ++ [mulBytes (s.reg ra) (s.reg rb)] := by
  cases h
  case prn r => exact .inr (.inl ⟨r, rfl, rfl⟩)
  case mul ra rb => exact .inr (.inr ⟨ra, rb, rfl, rfl⟩)
  case jeq | jne => exact .inl (by simp)
  case ldi | add | cmp | jmp | push | pop | call | ret | hlt => exact .inl rfl

/-- ST is written by HLT alone. -/
theorem Effect.st_eq (h : Effect i s t) : t.st = s.st ∨ i = .hlt ∧ t.st = .halted := by
  cases h
  case hlt => exact .inr ⟨rfl, rfl⟩
  case jeq | jne => exact .inl (by simp)
  case ldi | prn | mul | add | cmp | jmp | push | pop | call | ret => exact .inl rfl

/-- No effect writes the fault registers. -/
theorem Effect.faultRegs_eq (h : Effect i s t) : t.fcause = s.fcause ∧ t.finfo = s.finfo := by
  cases h
  case jeq | jne => simp
  case ldi | prn | mul | add | cmp | jmp | push | pop | call | ret | hlt => exact ⟨rfl, rfl⟩

/-- An instruction that takes effect in RUNNING does not leave the core FAULTED. -/
theorem Effect.st_ne_faulted (h : Effect i s t) (hr : s.st = .running) : t.st ≠ .faulted := by
  rcases h.st_eq with ht | ⟨-, ht⟩ <;> simp [ht, hr]

/-- A transfer goes to a byte's value or advances by its length; every other instruction advances. -/
theorem Effect.pc_eq (h : Effect i s t) :
    t.pc = s.pc + BitVec.ofNat _ i.length ∨ i.isTransfer = true ∧ ∃ v, t.pc = targetOf v := by
  cases h
  case ldi | prn | mul | add | cmp | push | pop | hlt => exact .inl rfl
  case jmp | call | ret => exact .inr ⟨rfl, _, rfl⟩
  case jeq r =>
    cases s.flags.e
    · exact .inl rfl
    · exact .inr ⟨rfl, _, rfl⟩
  case jne r =>
    cases s.flags.e
    · exact .inr ⟨rfl, _, rfl⟩
    · exact .inl rfl

/-- An effect keeps the canonical form of memory. -/
theorem Effect.mem_wf (h : Effect i s t) (hm : s.mem.wf = true) : t.mem.wf = true := by
  rcases h.mem_eq with ⟨-, he⟩ | ⟨a, v, -, he⟩
  · rw [he]; exact hm
  · rw [he]; exact Memory.wf_write v hm a.isLt

end Sys2Proof.Machine
end

section
/-! What a fetched instruction says about the place it was fetched from: its bytes lie inside Memory. -/

namespace Sys2Proof

theorem Mnemonic.arity_le_two (m : Mnemonic) : m.arity ≤ 2 := by
  cases m <;> decide

/-- What the operand bytes decode to has the mnemonic asked for, and these bytes as its operands. -/
theorem decodeOperands_ok {m : Mnemonic} {bs rest : List Byte} {i : Instr} (h : decodeOperands m bs = .ok (i, rest)) :
    i.mnemonic = m ∧ bs = i.operands ++ rest := by
  cases m
  case ldi | mul | add | cmp =>
    obtain ⟨a, b, rfl, rfl⟩ := takeTwo_ok h
    exact ⟨rfl, rfl⟩
  case prn | jmp | jeq | jne | push | pop | call =>
    obtain ⟨a, rfl, rfl⟩ := takeOne_ok h
    exact ⟨rfl, rfl⟩
  case ret | hlt => cases h; exact ⟨rfl, rfl⟩

/-- Bytes that decode are the encoding of the instruction, then the rest. -/
theorem eq_encode_append_of_decode {o : OpcodeMap} {bs rest : List Byte} {i : Instr} (h : decode o bs = .ok (i, rest)) :
    bs = encode o i ++ rest := by
  cases bs with
  | nil => cases h
  | cons b bs =>
    simp only [decode] at h
    split at h
    next => cases h
    next m hm =>
      obtain ⟨rfl, rfl⟩ := decodeOperands_ok h
      rw [encode, decodeOpcode_some hm, List.cons_append]

namespace Machine

/-- The window ends where Memory ends. -/
theorem Memory.add_length_window_le {m : Memory} {a : Nat} (h : m.window a ≠ []) : a + (m.window a).length ≤ 256 := by
  rcases m.window_cases a with ⟨-, hw⟩ | ⟨ha, hw⟩ | ⟨ha, hw⟩ | ⟨ha, hw⟩
  · exact absurd hw h
  all_goals simp only [hw, List.length_cons, List.length_nil]; omega

/-- A fetched instruction ends inside Memory (R90, R92). -/
theorem pc_add_length_le_of_fetch {o : OpcodeMap} {s : State} {i : Instr} (h : fetch o s = .ok i) :
    s.pc.toNat + i.length ≤ 256 := by
  obtain ⟨rest, hd⟩ := fetch_ok h
  have hw : s.mem.window s.pc.toNat = encode o i ++ rest := eq_encode_append_of_decode hd
  have hle := Memory.add_length_window_le (m := s.mem) (a := s.pc.toNat) (by simp [hw, encode])
  rw [hw, List.length_append, encode_length] at hle
  omega

/-- The sequential advance past a fetched instruction does not wrap (R26). -/
theorem pc_add_length_toNat_of_fetch {o : OpcodeMap} {s : State} {i : Instr} (h : fetch o s = .ok i) :
    (s.pc + BitVec.ofNat 9 i.length).toNat = s.pc.toNat + i.length := by
  have hle := pc_add_length_le_of_fetch h
  rw [BitVec.toNat_add, BitVec.toNat_ofNat]
  omega

theorem targetOf_toNat_le (v : Byte) : (targetOf v).toNat ≤ 255 := by
  rw [targetOf_toNat]
  exact Nat.le_of_lt_succ v.isLt

end Machine
end Sys2Proof
end

section
/-! The invariant of the core: each of its parts is kept by an effect and by a fault. -/

namespace Sys2Proof.Machine

/-- The comparison sets at most one flag (R32, R115). -/
theorem compareBytes_atMostOne (u v : Byte) : (compareBytes u v).AtMostOne := by
  rcases Nat.lt_trichotomy u.toNat v.toNat with h | h | h
  · simp [Flags.AtMostOne, compareBytes, h, h.ne, h.le]
  · simp [Flags.AtMostOne, compareBytes, h]
  · simp [Flags.AtMostOne, compareBytes, h, h.ne', h.le]

/-- A product of two bytes is at most 255 * 255 (R37, R111). -/
theorem mulBytes_toNat_le (u v : Byte) : (mulBytes u v).toNat ≤ 65025 := by
  have hle : u.toNat * v.toNat ≤ 255 * 255 :=
    Nat.mul_le_mul (Nat.le_of_lt_succ u.isLt) (Nat.le_of_lt_succ v.isLt)
  exact (Nat.mod_le _ _).trans hle

/-- An illegal opcode's fault has a byte as information; a fetch beyond Memory has 256 (R152, R153). -/
theorem fetch_error {o : OpcodeMap} {s : State} {f : CoreFault} {info : InfoWord} (hpc : s.pc.toNat ≤ 256)
    (h : fetch o s = .error (f, info)) :
    (f = .illegalInstruction ∧ info.toNat ≤ 255) ∨ (f = .addressError ∧ info.toNat = 256) := by
  unfold fetch at h
  split at h
  · cases h
  next e hd =>
    rcases decode_error hd with ⟨b, rest, hw, rfl, hb⟩ | ⟨rfl, hshort⟩
    · cases h
      exact .inl ⟨rfl, by rw [BitVec.toNat_setWidth]; omega⟩
    · cases h
      refine .inr ⟨rfl, ?_⟩
      have hend : s.pc.toNat + s.window.length = 256 := by
        unfold State.window at hshort ⊢
        rcases s.mem.window_cases s.pc.toNat with ⟨ha, hw⟩ | ⟨ha, hw⟩ | ⟨ha, hw⟩ | ⟨ha, hw⟩
        · rw [hw, List.length_nil]; omega
        · rw [hw, ha]; rfl
        · rw [hw, ha]; rfl
        · -- three bytes are enough for every instruction
          rw [hw] at hshort
          obtain h0 | ⟨b, rest, m, h0, -, hlt⟩ := hshort
          · cases h0
          · cases h0
            exact absurd hlt (Nat.not_lt.2 m.arity_le_two)
      rw [hend]
      rfl

/-- The fault a step takes is a row of R151, with the information that row has. -/
theorem StepFault.faultRegsConsistent {o : OpcodeMap} {s : State} {f : CoreFault} {info : InfoWord}
    (hpc : s.pc.toNat ≤ 256) (h : StepFault o s f info) : (s.raise f info).FaultRegsConsistent := by
  refine ⟨fun hn => absurd rfl hn, ?_⟩
  rintro -
  rcases h with hf | ⟨hi, ht⟩
  · rcases fetch_error hpc hf with ⟨rfl, hinfo⟩ | ⟨rfl, hinfo⟩
    · exact .inl ⟨rfl, hinfo⟩
    · exact .inr (.inl ⟨rfl, hinfo⟩)
  · cases ht
    case reg b hb _ =>
      rw [State.raise_finfo, BitVec.toNat_setWidth_of_le (by decide)]
      exact .inr (.inr (.inl ⟨rfl, hb, Nat.le_of_lt_succ b.isLt⟩))
    case pushOverflow | callOverflow => exact .inr (.inr (.inr (.inl ⟨rfl, rfl⟩)))
    case popUnderflow | retUnderflow => exact .inr (.inr (.inr (.inr ⟨rfl, rfl⟩)))
    case returnAddr h1 =>
      -- the CALL itself lies inside Memory, so its return address is at most 256
      have hle : s.pc.toNat + 2 ≤ 256 := pc_add_length_le_of_fetch hi
      have heq : s.pc.toNat + 2 = 256 := by omega
      exact .inr (.inl ⟨rfl, by rw [State.raise_finfo, heq]; rfl⟩)

theorem Effect.outRange {i : Instr} {s t : State} (h : Effect i s t) (hs : ∀ v ∈ s.out, v.toNat ≤ 65025) :
    ∀ v ∈ t.out, v.toNat ≤ 65025 := by
  rcases h.out_eq with he | ⟨r, -, he⟩ | ⟨ra, rb, -, he⟩ <;> rw [he]
  · exact hs
  · have hr : ((s.reg r).setWidth 16).toNat ≤ 65025 := by rw [BitVec.toNat_setWidth]; omega
    exact List.forall_mem_append.2 ⟨hs, List.forall_mem_singleton.2 hr⟩
  · exact List.forall_mem_append.2 ⟨hs, List.forall_mem_singleton.2 (mulBytes_toNat_le _ _)⟩

theorem Effect.flags_atMostOne {i : Instr} {s t : State} (h : Effect i s t) (hs : s.flags.AtMostOne) :
    t.flags.AtMostOne := by
  rcases h.flags_eq with he | ⟨ra, rb, -, he⟩ <;> rw [he]
  · exact hs
  · exact compareBytes_atMostOne _ _

/-- The effect of a fetched instruction leaves `pc` in 0..256. -/
theorem Effect.pcRange {o : OpcodeMap} {i : Instr} {s t : State} (h : Effect i s t) (hf : fetch o s = .ok i) :
    t.pc.toNat ≤ 256 := by
  rcases h.pc_eq with he | ⟨-, v, he⟩ <;> rw [he]
  · rw [pc_add_length_toNat_of_fetch hf]
    exact pc_add_length_le_of_fetch hf
  · exact (targetOf_toNat_le v).trans (by decide)

/-- The effect of a fetched instruction keeps the invariant. -/
theorem Effect.inv {o : OpcodeMap} {i : Instr} {s t : State} (h : Effect i s t) (hf : fetch o s = .ok i)
    (hr : s.st = .running) (hs : s.Inv) : t.Inv where
  pcRange := h.pcRange hf
  memCanonical := h.mem_wf hs.memCanonical
  flagsLegal := h.flags_atMostOne hs.flagsLegal
  faultRegs := by
    obtain ⟨hc, hi⟩ := h.faultRegs_eq
    refine ⟨fun _ => ?_, fun hn => absurd hn (h.st_ne_faulted hr)⟩
    rw [hc, hi]
    exact hs.faultRegs.1 (by simp [hr])
  outRange := h.outRange hs.outRange

/-- Taking a fault keeps the invariant: only ST and the fault registers change (R161). -/
theorem StepFault.inv {o : OpcodeMap} {s : State} {f : CoreFault} {info : InfoWord} (h : StepFault o s f info)
    (hs : s.Inv) : (s.raise f info).Inv where
  pcRange := hs.pcRange
  memCanonical := hs.memCanonical
  flagsLegal := hs.flagsLegal
  faultRegs := h.faultRegsConsistent hs.pcRange
  outRange := hs.outRange

theorem stepWith_keeps_inv {o : OpcodeMap} {s t : State} (hs : s.Inv) (h : stepWith o s = .next t) : t.Inv := by
  obtain ⟨hr, ⟨i, hf, he⟩ | ⟨f, info, hf, rfl⟩⟩ := stepWith_next_iff.1 h
  · exact he.inv hf hr hs
  · exact hf.inv hs

/-- The reset values with any canonical memory meet the invariant. -/
theorem State.resetWith_inv (spInit : Byte) {m : Memory} (hm : m.wf = true) :
    ({ State.resetWith spInit with mem := m } : State).Inv where
  pcRange := Nat.zero_le _
  memCanonical := hm
  flagsLegal := Nat.zero_le _
  faultRegs := ⟨fun _ => ⟨rfl, rfl⟩, fun hn => nomatch hn⟩
  outRange := fun _ hv => nomatch hv

/-- A launch state is the reset values with the image in memory (R180). -/
theorem State.launch_eq {spInit : Byte} {image : List Byte} {s : State} (h : State.launch spInit image = some s) :
    s = { State.resetWith spInit with mem := s.mem } := by
  unfold State.launch at h
  split at h
  next => cases h; rfl
  next => cases h

/-- Settles O9: an effect and a fault each keep every part of the invariant. -/
theorem stepKeepsMachineState : Obligations.StepKeepsMachineState :=
  fun _ _ hs h => stepWith_keeps_inv hs h

/-- Settles O8, from the reset values over a canonical memory. -/
theorem resetAndLaunchMeetInvariant : Obligations.ResetAndLaunchMeetInvariant := by
  refine ⟨State.resetWith_inv _ reset_mem_wf, fun spInit image s h => ?_⟩
  rw [State.launch_eq h]
  exact State.resetWith_inv spInit (State.launch_mem_wf h)

/-- Settles O18, from where an effect leaves `pc` and the room a fetched instruction has. -/
theorem programCounterAdvancesByLength : Obligations.ProgramCounterAdvancesByLength := by
  intro o s t i hf h hnf
  refine ⟨pc_add_length_le_of_fetch hf, ?_⟩
  obtain ⟨-, ⟨j, hj, he⟩ | ⟨f, info, -, rfl⟩⟩ := stepWith_next_iff.1 h
  · obtain rfl : i = j := by simpa [hf] using hj
    rcases he.pc_eq with hpc | ⟨htr, v, hpc⟩
    · rw [hpc, pc_add_length_toNat_of_fetch hf]
      exact ⟨fun _ => rfl, fun _ => .inr rfl⟩
    · rw [hpc]
      exact ⟨fun hn => by simp [hn] at htr, fun _ => .inl (targetOf_toNat_le v)⟩
  · exact absurd rfl hnf

end Sys2Proof.Machine
end

section
/-! The frames: what an instruction that gives a next state leaves unchanged. -/

namespace Sys2Proof.Machine

/-- Settles O33, from the register frame of an effect. -/
theorem otherRegistersUnchanged : Obligations.OtherRegistersUnchanged := by
  intro i s t r h hr
  rcases exec_next h with he | ⟨f, info, -, rfl⟩
  · exact he.reg_of_not_mayWriteReg hr
  · rfl

/-- Settles O34: an effect writes one byte at the store address or none. -/
theorem otherMemoryUnchanged : Obligations.OtherMemoryUnchanged := by
  intro i s t h
  rcases exec_next h with he | ⟨f, info, -, rfl⟩
  · rcases he.mem_eq with ⟨hno, hm⟩ | ⟨a, v, ha, hm⟩ <;> rw [hm]
    · exact ⟨fun _ _ _ _ => rfl, fun _ _ => rfl⟩
    · refine ⟨fun b hb c hc => ?_, fun hno => by simp [ha] at hno⟩
      obtain rfl : a = b := by simpa [ha] using hb
      exact Memory.read_write_other v hc
  · exact ⟨fun _ _ _ _ => rfl, fun _ _ => rfl⟩

/-- Settles O35, from the frames of the flags, the output, ST and the fault registers. -/
theorem otherSpecialStateUnchanged : Obligations.OtherSpecialStateUnchanged := by
  intro i s t h
  rcases exec_next h with he | ⟨f, info, -, rfl⟩
  · refine ⟨fun hcmp => ?_, fun hprn hmul => ?_, ?_⟩
    · rcases he.flags_eq with hfl | ⟨ra, rb, hi, -⟩
      · exact hfl
      · exact absurd hi (hcmp _ _)
    · rcases he.out_eq with hout | ⟨r, hi, -⟩ | ⟨ra, rb, hi, -⟩
      · exact hout
      · exact absurd hi (hprn _)
      · exact absurd hi (hmul _ _)
    · rcases he.st_eq with hst | ⟨hi, hst⟩
      · exact .inl ⟨hst, he.faultRegs_eq⟩
      · exact .inr (.inl ⟨hi, hst, he.faultRegs_eq⟩)
  · exact ⟨fun _ => rfl, fun _ _ => rfl, .inr (.inr ⟨f, info, rfl⟩)⟩

/-- Settles O36: among the effects only CMP's writes the flags. -/
theorem flagsChangeOnlyByCmp : Obligations.FlagsChangeOnlyByCmp := by
  intro o s t h
  obtain ⟨hr, ⟨i, hf, he⟩ | ⟨f, info, -, rfl⟩⟩ := stepWith_next_iff.1 h
  · rcases he.flags_eq with hfl | ⟨ra, rb, rfl, hfl⟩
    · exact .inl hfl
    · rcases he.st_eq with hst | ⟨hne, -⟩
      · exact .inr ⟨ra, rb, hf, hst.trans hr, hfl⟩
      · cases hne
  · exact .inl rfl

end Sys2Proof.Machine
end

section
/-! What no step reads: a fault depends on registers, `pc` and Memory alone; an effect carries over to a state with other
flags, another output or other fault registers. -/

namespace Sys2Proof.Machine

theorem Trap.congr {i : Instr} {s u : State} {f : CoreFault} {info : InfoWord} (h : Trap i s f info)
    (hregs : u.regs = s.regs) (hpc : u.pc = s.pc) (hmem : u.mem = s.mem) : Trap i u f info := by
  have hsp : u.sp = s.sp := congrArg (·[Config.spIndex]) hregs
  cases h
  case reg b hlt hb => exact .reg i u b hb hlt
  case pushOverflow r h0 => exact .pushOverflow r u (hsp.trans h0)
  case callOverflow r h0 => exact .callOverflow r u (hsp.trans h0)
  case popUnderflow r h0 =>
    have htop : popTop u r = popTop s r := by simp only [popTop, State.load, hsp, hmem]
    exact .popUnderflow r u (htop.trans h0)
  case retUnderflow h0 => exact .retUnderflow u (hsp.trans h0)
  case returnAddr r h0 h1 =>
    rw [← hpc] at h1 ⊢
    exact .returnAddr r u (hsp ▸ h0) h1

theorem StepFault.congr {o : OpcodeMap} {s u : State} {f : CoreFault} {info : InfoWord} (h : StepFault o s f info)
    (hregs : u.regs = s.regs) (hpc : u.pc = s.pc) (hmem : u.mem = s.mem) : StepFault o u f info := by
  rcases h with hf | ⟨hi, ht⟩
  · exact .fetch ((fetch_congr hpc hmem).trans hf)
  · exact .trap ((fetch_congr hpc hmem).trans hi) (ht.congr hregs hpc hmem)

variable {i : Instr} {s t : State}

/-- JEQ's effect with the choice made in the program counter. -/
theorem Effect.jeq_setPc (r : RegIdx) (s : State) : Effect (.jeq (regByte r)) s
    (s.setPc (if s.flags.e then targetOf (s.reg r) else s.pc + BitVec.ofNat _ 2)) := by
  rw [← State.ite_setPc_advance]
  exact .jeq r s

/-- JNE's effect with the choice made in the program counter. -/
theorem Effect.jne_setPc (r : RegIdx) (s : State) : Effect (.jne (regByte r)) s
    (s.setPc (if s.flags.e then s.pc + BitVec.ofNat _ 2 else targetOf (s.reg r))) := by
  rw [← State.ite_advance_setPc]
  exact .jne r s

/-- An effect with other fault registers before it has these after it, and is otherwise the same. -/
theorem Effect.withFaultRegs (h : Effect i s t) (c : CauseWord) (n : InfoWord) :
    Effect i { s with fcause := c, finfo := n } { t with fcause := c, finfo := n } := by
  cases h
  case jeq r => rw [State.ite_setPc_advance]; exact .jeq_setPc r { s with fcause := c, finfo := n }
  case jne r => rw [State.ite_advance_setPc]; exact .jne_setPc r { s with fcause := c, finfo := n }
  case ldi | prn | mul | add | cmp | jmp | push | pop | call | ret | hlt => constructor <;> assumption

/-- Whatever the output held, an effect appends the same values: one for PRN and MUL, none for the others. -/
theorem Effect.withOut (h : Effect i s t) : ∃ vs : List OutWord, vs.length ≤ 1 ∧
    (vs ≠ [] → (∃ a, i = .prn a) ∨ ∃ a b, i = .mul a b) ∧
    ∀ out, Effect i { s with out := out } { t with out := out ++ vs } := by
  cases h
  case prn r => exact ⟨[(s.reg r).setWidth 16], le_rfl, fun _ => .inl ⟨_, rfl⟩, fun out => .prn r { s with out := out }⟩
  case mul q r => exact ⟨[s.aluMul q r], le_rfl, fun _ => .inr ⟨_, _, rfl⟩, fun out => .mul q r { s with out := out }⟩
  all_goals refine ⟨[], Nat.zero_le 1, fun hn => absurd rfl hn, fun out => ?_⟩; rw [List.append_nil]
  case jeq r => rw [State.ite_setPc_advance]; exact .jeq_setPc r { s with out := out }
  case jne r => rw [State.ite_advance_setPc]; exact .jne_setPc r { s with out := out }
  case ldi | add | cmp | jmp | push | pop | call | ret | hlt => constructor <;> assumption

/-- An effect with other flags before it: CMP's writes the same flags, every other keeps the flags it found; a conditional
jump needs FL.E to be the same. -/
theorem Effect.withFlags (h : Effect i s t) (f : Flags)
    (hf : f.e = s.flags.e ∨ ∀ a, i ≠ .jeq a ∧ i ≠ .jne a) :
    ∃ g, (g = f ∨ g = t.flags) ∧ Effect i { s with flags := f } { t with flags := g } := by
  cases h
  case cmp q r => exact ⟨_, .inr rfl, .cmp q r { s with flags := f }⟩
  all_goals refine ⟨f, .inl rfl, ?_⟩
  case jeq r =>
    obtain he | hn := hf
    · rw [State.ite_setPc_advance, ← he]
      exact .jeq_setPc r { s with flags := f }
    · exact absurd rfl (hn _).1
  case jne r =>
    obtain he | hn := hf
    · rw [State.ite_advance_setPc, ← he]
      exact .jne_setPc r { s with flags := f }
    · exact absurd rfl (hn _).2
  case ldi | prn | mul | add | jmp | push | pop | call | ret | hlt => constructor <;> assumption

end Sys2Proof.Machine
end

section
/-! The statements about what no step reads. -/

namespace Sys2Proof.Machine

/-- Settles O37: an effect carries over to other flags, and no fault reads a flag. -/
theorem onlyEqualFlagIsRead : Obligations.OnlyEqualFlagIsRead := by
  intro o s t f h hf
  obtain ⟨hr, ⟨i, hi, he⟩ | ⟨c, info, hc, rfl⟩⟩ := stepWith_next_iff.1 h
  · obtain ⟨g, hg, hu⟩ := he.withFlags f (by simpa [hi] using hf)
    exact ⟨_, stepWith_next_iff.2 ⟨hr, .inl ⟨i, (fetch_congr rfl rfl).trans hi, hu⟩⟩, rfl, hg⟩
  · exact ⟨_, stepWith_next_iff.2 ⟨hr, .inr ⟨c, info, hc.congr rfl rfl rfl, rfl⟩⟩, rfl, .inl rfl⟩

/-- Settles O38: an effect appends the same values to every output, and a fault appends none. -/
theorem outputIsAppendedAndNeverRead : Obligations.OutputIsAppendedAndNeverRead := by
  intro o s t h
  obtain ⟨hr, ⟨i, hi, he⟩ | ⟨c, info, hc, rfl⟩⟩ := stepWith_next_iff.1 h
  · obtain ⟨vs, hlen, hvs, hu⟩ := he.withOut
    refine ⟨vs, hlen, by simpa [hi] using hvs, fun out => ?_⟩
    exact stepWith_next_iff.2 ⟨hr, .inl ⟨i, (fetch_congr rfl rfl).trans hi, hu out⟩⟩
  · refine ⟨[], Nat.zero_le 1, fun hn => absurd rfl hn, fun out => ?_⟩
    rw [List.append_nil]
    exact stepWith_next_iff.2 ⟨hr, .inr ⟨c, info, hc.congr rfl rfl rfl, rfl⟩⟩

/-- Settles O39: an effect keeps the fault registers it finds, and a fault overwrites both. -/
theorem faultRegistersAreNeverRead : Obligations.FaultRegistersAreNeverRead := by
  intro o s t c n h
  obtain ⟨hr, ⟨i, hi, he⟩ | ⟨f, info, hf, rfl⟩⟩ := stepWith_next_iff.1 h
  · rw [if_neg (he.st_ne_faulted hr)]
    exact stepWith_next_iff.2 ⟨hr, .inl ⟨i, (fetch_congr rfl rfl).trans hi, he.withFaultRegs c n⟩⟩
  · rw [if_pos (State.raise_st s f info)]
    exact stepWith_next_iff.2 ⟨hr, .inr ⟨f, info, hf.congr rfl rfl rfl, rfl⟩⟩

end Sys2Proof.Machine
end

section
/-! The data behind the interfaces: canonical memories, the flag byte and the encoding of ST. -/

namespace Sys2Proof.Machine

theorem Memory.read_cons_self (a : Nat) (v : Byte) (m : Memory) : Memory.read ((a, v) :: m) a = v := if_pos rfl

theorem Memory.read_cons_other {a b : Nat} (v : Byte) (m : Memory) (h : b ≠ a) :
    Memory.read ((a, v) :: m) b = m.read b := if_neg h

/-- A memory that reads like one that lists `a` first lists no address above `a` first: it would read as 0 at `a`. -/
theorem Memory.lowerBound_le_head {lo k a : Nat} {v : Byte} {m n : Memory} (hm : Memory.wfFrom lo ((a, v) :: m) = true)
    (hn : Memory.wfFrom k n = true) (h : ∀ c, c < 256 → Memory.read ((a, v) :: m) c = n.read c) : k ≤ a := by
  obtain ⟨-, ha, hv, -⟩ := Memory.wfFrom_cons.1 hm
  by_contra hk
  have hread := h a ha
  rw [Memory.read_cons_self, Memory.read_below hn (Nat.lt_of_not_le hk)] at hread
  exact hv hread

theorem Memory.eq_of_read_eq {lo lo' : Nat} {m n : Memory} (hm : Memory.wfFrom lo m = true)
    (hn : Memory.wfFrom lo' n = true) (h : ∀ c, c < 256 → m.read c = n.read c) : m = n := by
  induction m generalizing n lo lo' with
  | nil =>
    cases n with
    | nil => rfl
    | cons c n =>
      have hle := Memory.lowerBound_le_head (k := c.1 + 1) hn rfl fun d hd => (h d hd).symm
      omega
  | cons c m ih =>
    obtain ⟨a, v⟩ := c
    obtain ⟨-, ha, hv, hm'⟩ := Memory.wfFrom_cons.1 hm
    cases n with
    | nil =>
      have hle := Memory.lowerBound_le_head (k := a + 1) hm rfl h
      omega
    | cons d n =>
      obtain ⟨b, w⟩ := d
      obtain ⟨-, hb, hw, hn'⟩ := Memory.wfFrom_cons.1 hn
      have hba : b ≤ a := Memory.lowerBound_le_head hm (Memory.wfFrom_cons.2 ⟨le_rfl, hb, hw, hn'⟩) h
      have hab : a ≤ b :=
        Memory.lowerBound_le_head hn (Memory.wfFrom_cons.2 ⟨le_rfl, ha, hv, hm'⟩) fun e he => (h e he).symm
      obtain rfl : a = b := Nat.le_antisymm hab hba
      obtain rfl : v = w := by simpa [Memory.read_cons_self] using h a ha
      have htail : m = n := ih hm' hn' fun e he => by
        by_cases hea : e = a
        · rw [hea, Memory.read_below hm' a.lt_succ_self, Memory.read_below hn' a.lt_succ_self]
        · simpa [Memory.read_cons_other v _ hea] using h e he
      rw [htail]

/-- Settles O41, by induction over the two lists: their first addresses and bytes agree, then the rests read the same. -/
theorem canonicalMemoryIsUnique : Obligations.CanonicalMemoryIsUnique :=
  fun _ _ hm hn h => Memory.eq_of_read_eq hm hn h

/-- Settles O46, on each of the eight flag states. -/
theorem statusEncodingsAreTheSpecs : Obligations.StatusEncodingsAreTheSpecs := by
  refine ⟨fun ⟨l, g, e⟩ => ?_, rfl, rfl, rfl⟩
  cases l <;> cases g <;> cases e <;> decide

end Sys2Proof.Machine
end

section
/-! Memory as the next fetch sees it: the fetch window byte by byte, and what a fetch and a step do by the byte at the
program counter (40_dispatch.md R90 to R92). -/

namespace Sys2Proof.Machine

/-- A read after a write, at every address (R50, R51). -/
theorem Memory.read_write {m : Memory} (hm : m.wf = true) (a : Nat) (v : Byte) (b : Nat) :
    (m.write a v).read b = if b = a then v else m.read b := by
  split
  next hb => rw [hb, Memory.read_write_same v hm]
  next hb => exact Memory.read_write_other v hb

/-- Inside Memory the window begins with the byte at its address. -/
theorem Memory.window_eq_cons (m : Memory) {a : Nat} (ha : a ≤ 255) : ∃ bs, m.window a = m.read a :: bs := by
  rcases m.window_cases a with ⟨h, -⟩ | ⟨rfl, hw⟩ | ⟨rfl, hw⟩ | ⟨-, hw⟩
  · omega
  all_goals exact ⟨_, hw⟩

/-- The window lists the bytes of Memory at ascending addresses (R54). -/
theorem Memory.window_getElem (m : Memory) (a k : Nat) (hk : k < (m.window a).length) :
    (m.window a)[k] = m.read (a + k) := by
  have hget : (m.window a)[k]? = some (m.read (a + k)) := by
    rcases m.window_cases a with ⟨-, hw⟩ | ⟨rfl, hw⟩ | ⟨rfl, hw⟩ | ⟨-, hw⟩ <;> rw [hw] at hk ⊢
    · cases hk
    · obtain rfl : k = 0 := Nat.lt_one_iff.1 hk
      rfl
    · match k, hk with
      | 0, _ | 1, _ => rfl
    · match k, hk with
      | 0, _ | 1, _ | 2, _ => rfl
  exact (List.getElem_eq_iff hk).2 hget

/-- A window shorter than the longest instruction is cut off by the end of Memory. -/
theorem Memory.add_length_window_eq {m : Memory} {a : Nat} (ha : a ≤ 255) (hl : (m.window a).length < 3) :
    a + (m.window a).length = 256 := by
  rcases m.window_cases a with ⟨h, -⟩ | ⟨rfl, hw⟩ | ⟨rfl, hw⟩ | ⟨-, hw⟩
  · omega
  · rw [hw]; rfl
  · rw [hw]; rfl
  · rw [hw] at hl
    exact absurd hl (lt_irrefl 3)

variable {o : OpcodeMap} {s : State}

/-- The bytes of a fetched instruction are those of Memory from the program counter on (R90). -/
theorem encode_getElem_of_fetch {i : Instr} (h : fetch o s = .ok i) (k : Nat) (hk : k < (encode o i).length) :
    (encode o i)[k] = s.mem.read (s.pc.toNat + k) := by
  obtain ⟨rest, hd⟩ := fetch_ok h
  have hw : s.mem.window s.pc.toNat = encode o i ++ rest := eq_encode_append_of_decode hd
  have hk' : k < (s.mem.window s.pc.toNat).length := by
    rw [hw, List.length_append]
    omega
  rw [← Memory.window_getElem _ _ k hk']
  simp only [hw, List.getElem_append_left hk]

/-- A byte that is no opcode is the fetch's IllegalInstruction, whatever follows it (R80, R152). -/
theorem fetch_of_no_opcode (hpc : s.pc.toNat ≤ 255) (h : ∀ m, o m ≠ s.mem.read s.pc.toNat) :
    fetch o s = .error (.illegalInstruction, (s.mem.read s.pc.toNat).setWidth 16) := by
  obtain ⟨bs, hw⟩ := s.mem.window_eq_cons hpc
  simp [fetch, State.window, hw, decode, decodeOpcode_none.2 h, fetchFault]

/-- An opcode byte whose instruction ends inside Memory is fetched as an instruction of its mnemonic; one whose
instruction ends beyond it is the fetch's AddressError at 256, the first address out of range (R92, R153). -/
theorem fetch_of_opcode (ho : Function.Injective o) {m : Mnemonic} (hpc : s.pc.toNat ≤ 255)
    (hm : s.mem.read s.pc.toNat = o m) :
    (s.pc.toNat + m.length ≤ 256 ∧ ∃ i, i.mnemonic = m ∧ fetch o s = .ok i) ∨
    (256 < s.pc.toNat + m.length ∧ fetch o s = .error (.addressError, 256)) := by
  obtain ⟨bs, hw⟩ := s.mem.window_eq_cons hpc
  have hwin : s.window = o m :: bs := hm ▸ hw
  cases hd : decode o s.window with
  | ok r =>
    obtain ⟨i, rest⟩ := r
    have hf : fetch o s = .ok i := by simp only [fetch, hd]
    have hcons : o m :: bs = o i.mnemonic :: (i.operands ++ rest) := hwin ▸ eq_encode_append_of_decode hd
    obtain rfl : m = i.mnemonic := ho (List.cons.inj hcons).1
    exact .inl ⟨pc_add_length_le_of_fetch hf, i, rfl, hf⟩
  | error e =>
    rcases decode_error hd with ⟨b, rest, hb, -, hno⟩ | ⟨rfl, hnil | ⟨b, rest, n, hb, hn, hlt⟩⟩
    · rw [hwin] at hb
      exact absurd (List.cons.inj hb).1 (hno m)
    · rw [hwin] at hnil
      cases hnil
    · obtain rfl : m = n := by
        rw [hwin] at hb
        exact ho ((List.cons.inj hb).1.trans (decodeOpcode_some hn).symm)
      have hshort : s.window.length < m.length := by
        rw [hb, Mnemonic.length, List.length_cons]
        omega
      have hend : s.pc.toNat + s.window.length = 256 :=
        Memory.add_length_window_eq hpc (hshort.trans_le (Nat.add_le_add_left m.arity_le_two 1))
      refine .inr ⟨by omega, ?_⟩
      simp only [fetch, hd, fetchFault, hend]
      rfl

end Sys2Proof.Machine
end

section
/-! The Memory contract, and a stored byte as the next step sees it (20_memory.md R50, R51, R60). -/

namespace Sys2Proof.Machine

/-- Settles O40, by the read after a write. -/
theorem storeThenLoad : Obligations.StoreThenLoad :=
  fun _ a v hm => ⟨State.load_store_same hm, fun _ hb => State.load_store_other hb, State.store_mem_wf a v hm, rfl⟩

/-- The register PUSH stores, read after the decrement (D14). -/
theorem State.reg_setSp_pushAddr (s : State) (r : RegIdx) :
    (s.setSp s.pushAddr).reg r = if r = 7 then s.reg 7 - 1 else s.reg r := by
  split
  next hr =>
    subst hr
    exact State.sp_setSp s _
  next hr => exact State.reg_setSp_other s _ (Ne.symm hr)

/-- PUSH with room on the stack writes one byte of Memory and leaves ST alone (R131). -/
theorem exists_effect_push {s : State} (h7 : s.reg 7 ≠ 0) (r : RegIdx) :
    ∃ t, Effect (.push (regByte r)) s t ∧ t.st = s.st ∧
      t.mem = s.mem.write s.pushAddr.toNat (if r = 7 then s.reg 7 - 1 else s.reg r) := by
  rw [← State.reg_setSp_pushAddr]
  exact ⟨_, .push r s h7, rfl, rfl⟩

/-- CALL with room on the stack and a return address that is a byte writes that byte and leaves ST alone (R133). -/
theorem exists_effect_call {s : State} {v : Byte} (h7 : s.reg 7 ≠ 0) (r : RegIdx) (hv : v.toNat = s.pc.toNat + 2) :
    ∃ t, Effect (.call (regByte r)) s t ∧ t.st = s.st ∧ t.mem = s.mem.write s.pushAddr.toNat v := by
  obtain rfl : BitVec.ofNat 8 (s.pc.toNat + 2) = v := by rw [← hv, BitVec.ofNat_toNat, BitVec.setWidth_eq]
  exact ⟨_, .call r s h7 (hv ▸ Nat.le_of_lt_succ (BitVec.isLt _)), rfl, rfl⟩

/-- Settles O42: the step writes one byte of Memory, and the fetch of the next step reads Memory as it then is. -/
theorem pushedByteIsFetchedNext : Obligations.PushedByteIsFetchedNext := by
  intro o s i v ho hwf hr hf h7 hi after
  obtain ⟨t, he, hst, hmem⟩ : ∃ t, Effect i s t ∧ t.st = s.st ∧ t.mem = s.mem.write s.pushAddr.toNat v := by
    rcases hi with ⟨r, rfl, rfl⟩ | ⟨r, rfl, hv⟩
    · exact exists_effect_push h7 r
    · exact exists_effect_call h7 r hv
  have hrt : t.st = .running := hst.trans hr
  have hread : ∀ a, t.mem.read a = after a := fun a => hmem ▸ Memory.read_write hwf _ v a
  refine ⟨t, stepWith_next_iff.2 ⟨hr, .inl ⟨i, hf, he⟩⟩, hrt, hread, ?_⟩
  simp only [← hread]
  refine ⟨fun m hpc hm hfits => ?_, fun m hpc hm hends => ?_, fun hpc hno => ?_⟩
  · obtain ⟨-, j, hj, hfetch⟩ | ⟨hends, -⟩ := fetch_of_opcode ho.injective hpc hm
    · exact ⟨j, hj, encode_getElem_of_fetch hfetch, stepWith_ok hrt hfetch⟩
    · omega
  · obtain ⟨hfits, -⟩ | ⟨-, hfetch⟩ := fetch_of_opcode ho.injective hpc hm
    · omega
    · exact stepWith_error hrt hfetch
  · exact stepWith_error hrt (fetch_of_no_opcode hpc hno)

end Sys2Proof.Machine
end

section
/-! The encoding both ways: what the decoder makes of an opcode byte, whatever follows it (30_encoding.md R70 to R80). -/

namespace Sys2Proof

theorem Instr.length_operands (i : Instr) : i.operands.length = i.mnemonic.arity := by
  cases i <;> rfl

/-- The operand bytes of an instruction, read by its own format, give it back whole, each byte with all its bits. -/
theorem decodeOperands_operands (i : Instr) (rest : List Byte) :
    decodeOperands i.mnemonic (i.operands ++ rest) = .ok (i, rest) := by
  cases i <;> rfl

variable {o : OpcodeMap}

/-- Behind an opcode byte of the table the decoder reads the operands of its mnemonic (R71, R79). -/
theorem decode_opcode (ho : Function.Injective o) (m : Mnemonic) (rest : List Byte) :
    decode o (o m :: rest) = decodeOperands m rest := by
  simp only [decode, decodeOpcode_self ho]

/-- A byte that is no opcode is rejected whatever follows it (R80). -/
theorem decode_of_no_opcode {b : Byte} (h : ∀ m, o m ≠ b) (rest : List Byte) :
    decode o (b :: rest) = .error (.illegalOpcode b) := by
  simp only [decode, decodeOpcode_none.2 h]

/-- Behind an opcode byte of the table, all that can go wrong is that operand bytes are missing (R92). -/
theorem decode_opcode_error (ho : Function.Injective o) {m : Mnemonic} {rest : List Byte} {e : DecodeError}
    (h : decode o (o m :: rest) = .error e) : e = .missingByte (rest.length + 1) ∧ rest.length < m.arity := by
  rcases Machine.decode_error h with ⟨b, bs, hb, -, hno⟩ | ⟨he, hnil | ⟨b, bs, n, hb, hn, hlt⟩⟩
  · exact absurd (List.cons.inj hb).1 (hno m)
  · cases hnil
  · obtain ⟨hopc, rfl⟩ := List.cons.inj hb
    obtain rfl : m = n := ho (hopc.trans (decodeOpcode_some hn).symm)
    exact ⟨he, hlt⟩

theorem byte_ne_ofNat_iff (b : Byte) {n : Nat} (hn : n < 256) : b ≠ BitVec.ofNat 8 n ↔ b.toNat ≠ n := by
  rw [Ne, ← BitVec.toNat_inj, BitVec.toNat_ofNat, Nat.mod_eq_of_lt hn]

/-- The values of the opcode bytes of the table. -/
def opcodeValues (o : OpcodeMap) : Finset Nat := Mnemonic.all.toFinset.image fun m => (o m).toNat

theorem card_opcodeValues (ho : Function.Injective o) : (opcodeValues o).card = 13 :=
  Finset.card_image_of_injective _ (BitVec.toNat_injective.comp ho)

theorem opcodeValues_subset_range (o : OpcodeMap) : opcodeValues o ⊆ Finset.range 256 := by
  intro n hn
  obtain ⟨m, -, rfl⟩ := Finset.mem_image.1 hn
  exact Finset.mem_range.2 (o m).isLt

/-- The byte values outside the table are the 256 byte values without the opcodes' (R80). -/
theorem toFinset_filter_no_opcode (o : OpcodeMap) :
    ((List.range 256).filter fun n => decide (∀ m ∈ Mnemonic.all, o m ≠ BitVec.ofNat 8 n)).toFinset =
      Finset.range 256 \ opcodeValues o := by
  ext n
  simp only [List.mem_toFinset, List.mem_filter, List.mem_range, Finset.mem_sdiff, Finset.mem_range, decide_eq_true_eq,
    opcodeValues, Finset.mem_image, not_exists, not_and]
  exact and_congr_right fun hn => forall₂_congr fun m _ => byte_ne_ofNat_iff (o m) hn

/-- There are 256 - 13 byte values outside the table (R80). -/
theorem length_filter_no_opcode (ho : Function.Injective o) :
    ((List.range 256).filter fun n => decide (∀ m ∈ Mnemonic.all, o m ≠ BitVec.ofNat 8 n)).length = 243 := by
  rw [← List.toFinset_card_of_nodup (List.nodup_range.filter _), toFinset_filter_no_opcode,
    Finset.card_sdiff_of_subset (opcodeValues_subset_range o), card_opcodeValues ho, Finset.card_range]

end Sys2Proof
end

section
/-! The statements about the encoding. -/

namespace Sys2Proof

/-- Settles O1: the opcode byte selects the instruction's own format, which reads its operand bytes back. -/
theorem decodeOfEncodeIsIdentity : Obligations.DecodeOfEncodeIsIdentity := by
  intro o ho i rest
  rw [encode, List.cons_append, decode_opcode ho.injective, decodeOperands_operands]

/-- Settles O2, by what a successful lookup and a successful reading of the operand bytes say of the bytes. -/
theorem encodeOfDecodeIsIdentity : Obligations.EncodeOfDecodeIsIdentity :=
  fun _ _ _ _ h => eq_encode_append_of_decode h

/-- Settles O3: an instruction read behind the opcode takes exactly the arity's bytes off `rest`, and the only error there
is one of too few bytes. -/
theorem opcodeFixesLength : Obligations.OpcodeFixesLength := by
  refine ⟨rfl, fun o ho m rest => ?_⟩
  cases hd : decode o (o m :: rest) with
  | ok r =>
    obtain ⟨i, rest'⟩ := r
    obtain ⟨rfl, rfl⟩ := decodeOperands_ok ((decode_opcode ho.injective m rest).symm.trans hd)
    rw [← i.length_operands, List.take_left, List.drop_left, List.length_append]
    exact ⟨fun _ => ⟨i, rfl, rfl, congrArg (1 + ·) i.length_operands.symm, rfl⟩, fun hlt => by omega⟩
  | error e =>
    obtain ⟨rfl, hlt⟩ := decode_opcode_error ho.injective hd
    exact ⟨fun hle => absurd hlt (Nat.not_lt.2 hle), fun _ => rfl⟩

/-- Settles O4: the lookup of a byte outside the table fails before any operand is read, in the decoder as in the fetch. -/
theorem otherOpcodesAreIllegal : Obligations.OtherOpcodesAreIllegal := by
  intro o ho
  refine ⟨fun b hb => ⟨decode_of_no_opcode hb, ?_⟩, length_filter_no_opcode ho.injective, decode_of_no_opcode ho.nonzero⟩
  rintro s hr hpc rfl
  exact Machine.stepWith_error hr (Machine.fetch_of_no_opcode hpc hb)

/-- Settles O5: each word is the encoding of its instruction under the default `OPC`. -/
theorem specWordsDecode : Obligations.SpecWordsDecode :=
  have hdec := decodeOfEncodeIsIdentity opcDefault opcDefault_admissible
  ⟨hdec (.ldi 7 240) [], hdec (.cmp 0 2) [], hdec (.jne 3) [1], hdec (.call 1) [], hdec .hlt []⟩

end Sys2Proof
end

section
/-! A step exists in RUNNING: every test a handler runs goes on or takes a fault, so every meaning answers a next state. -/

namespace Sys2Proof.Machine

theorem withReg_exists_next {b : Byte} {s : State} {k : RegIdx → Result} (hk : ∀ r, ∃ t, k r = .next t) :
    ∃ t, withReg b s k = .next t := by
  rcases byte_isReg_or_bad b with ⟨r, rfl⟩ | hb
  · rw [withReg_regByte]
    exact hk r
  · exact ⟨_, withReg_bad hb s k⟩

theorem withStackRoom_exists_next {s : State} {k : Result} (hk : ∃ t, k = .next t) :
    ∃ t, withStackRoom s k = .next t := by
  by_cases h0 : s.sp = 0
  · exact ⟨_, withStackRoom_fault h0 k⟩
  · rwa [withStackRoom_pass h0]

theorem withStackTop_exists_next {top : Byte} {s : State} {k : Result} (hk : ∃ t, k = .next t) :
    ∃ t, withStackTop s top k = .next t := by
  by_cases h0 : top = 255
  · exact ⟨_, withStackTop_fault h0 s k⟩
  · rwa [withStackTop_pass h0]

theorem withReturnAddr_exists_next {s : State} {k : Byte → Result} (hk : ∀ v, ∃ t, k v = .next t) :
    ∃ t, withReturnAddr s k = .next t := by
  rcases Nat.lt_or_ge 255 (s.pc.toNat + 2) with h0 | h0
  · exact ⟨_, withReturnAddr_fault h0 k⟩
  · rw [withReturnAddr_pass h0]
    exact hk _

/-- Every instruction has a meaning in every state: `exec` answers no stop and no refusal. -/
theorem exec_exists_next (i : Instr) (s : State) : ∃ t, exec i s = .next t := by
  cases i
  case ldi | prn | jmp | jeq | jne => exact withReg_exists_next fun _ => ⟨_, rfl⟩
  case mul | add | cmp => exact withReg_exists_next fun _ => withReg_exists_next fun _ => ⟨_, rfl⟩
  case push => exact withReg_exists_next fun _ => withStackRoom_exists_next ⟨_, rfl⟩
  case pop => exact withReg_exists_next fun _ => withStackTop_exists_next ⟨_, rfl⟩
  case call =>
    exact withReg_exists_next fun _ => withStackRoom_exists_next (withReturnAddr_exists_next fun _ => ⟨_, rfl⟩)
  case ret => exact withStackTop_exists_next ⟨_, rfl⟩
  case hlt => exact ⟨_, rfl⟩

/-- A step exists exactly in RUNNING (R95). -/
theorem stepWith_exists_next_iff {o : OpcodeMap} {s : State} : (∃ t, stepWith o s = .next t) ↔ s.st = .running := by
  refine ⟨fun ⟨_, h⟩ => (stepWith_next h).1, fun hr => ?_⟩
  cases hf : fetch o s with
  | ok i =>
    rw [stepWith_ok hr hf]
    exact exec_exists_next i s
  | error e => exact ⟨_, stepWith_error hr hf⟩

/-- A run of more than no steps begins with a step. -/
theorem step_of_run_succ {M : Host.Core} {n : Nat} {s t : M.State} (h : M.run (n + 1) s = .next t) :
    ∃ u, M.step s = .next u ∧ M.run n u = .next t := by
  rw [Host.Core.run] at h
  split at h
  next u hu => exact ⟨u, hu, h⟩
  next => cases h
  next => cases h

/-- A state that steps to itself is where every run from it ends. -/
theorem run_of_step_self {M : Host.Core} {s : M.State} (h : M.step s = .next s) (n : Nat) : M.run n s = .next s := by
  induction n with
  | zero => rfl
  | succ n ih =>
    rw [Host.Core.run, h]
    exact ih

/-- The effect of a JMP to its own address is no change (R28). -/
theorem effect_jmp_self {s : State} {r : RegIdx} (h : (s.reg r).toNat = s.pc.toNat) : Effect (.jmp (regByte r)) s s := by
  have hpc : targetOf (s.reg r) = s.pc := BitVec.eq_of_toNat_eq ((targetOf_toNat _).trans h)
  have he := Effect.jmp r s
  rwa [hpc] at he

/-- Settles O12: every meaning answers a next state; a run out of a terminal state would begin with a step; a JMP to
itself steps to the state it began in. -/
theorem stepExistsExactlyWhenRunning : Obligations.StepExistsExactlyWhenRunning := by
  refine ⟨fun _ _ => stepWith_exists_next_iff, fun s n t hterm hrun => ?_, fun s r n hr hf hself => ?_⟩
  · obtain ⟨u, hu, -⟩ := step_of_run_succ hrun
    exact hterm (stepWith_exists_next_iff.1 ⟨u, hu⟩)
  · have hstep : step s = .next s := stepWith_next_iff.2 ⟨hr, .inl ⟨_, hf, effect_jmp_self hself⟩⟩
    exact run_of_step_self (M := core) hstep n

/-- Settles O13: the step that exists is the effect of the fetched instruction, which only HLT ends in HALTED, or a
fault. -/
theorem stepHasThreeResults : Obligations.StepHasThreeResults := by
  intro o s hr
  obtain ⟨t, ht⟩ := stepWith_exists_next_iff.2 hr
  refine ⟨t, ht, ?_⟩
  obtain ⟨-, ⟨i, hf, he⟩ | ⟨f, info, -, rfl⟩⟩ := stepWith_next_iff.1 ht
  · have hexec := exec_of_effect he
    by_cases hi : i = .hlt
    · subst hi
      cases he
      exact .inr (.inl ⟨rfl, hf, hexec⟩)
    · obtain hst | ⟨hhlt, -⟩ := he.st_eq
      · exact .inl ⟨hst.trans hr, i, hi, hf, hexec⟩
      · exact absurd hhlt hi
  · exact .inr (.inr ⟨rfl, rfl⟩)

end Sys2Proof.Machine
end

section
/-! The step runs what the fetch finds: the instruction the bytes at the program counter decode to, the bytes of an
encoded instruction, the bytes of a placed word, or no instruction where Memory ends. -/

namespace Sys2Proof

/-- Different instructions have different encodings, because the decoder gives each back (R54, R72). -/
theorem encode_injective {o : OpcodeMap} (ho : o.Admissible) : Function.Injective (encode o) := by
  intro i j h
  have hi := decodeOfEncodeIsIdentity o ho i []
  rw [h, decodeOfEncodeIsIdentity o ho j []] at hi
  cases hi
  rfl

theorem wordBytes_length (nbits w : Nat) : (wordBytes nbits w).length = 3 := rfl

theorem decode_of_decodeTableWord {nbits w : Nat} {i : Instr} (h : decodeTableWord nbits w = some i) :
    ∃ rest, decode opcDefault (wordBytes nbits w) = .ok (i, rest) := by
  unfold decodeTableWord at h
  split at h
  next j rest hd =>
    cases h
    exact ⟨rest, hd⟩
  next => cases h

namespace Machine

variable {o : OpcodeMap} {s : State}

/-- The converse of `fetch_ok`. -/
theorem fetch_of_decode {i : Instr} {rest : List Byte} (h : decode o s.window = .ok (i, rest)) : fetch o s = .ok i := by
  simp only [fetch, h]

/-- An instruction whose bytes stand at the program counter, inside Memory, is the one fetched (R90). -/
theorem fetch_of_encode {i : Instr} (ho : o.Admissible) (hfits : s.pc.toNat + i.length ≤ 256)
    (hbytes : ∀ k (h : k < (encode o i).length), s.mem.read (s.pc.toNat + k) = (encode o i)[k]) : fetch o s = .ok i := by
  have hpos : i.length = 1 + i.mnemonic.arity := rfl
  obtain ⟨-, j, hj, hf⟩ | ⟨hends, -⟩ :=
    fetch_of_opcode ho.injective (show s.pc.toNat ≤ 255 by omega) (hbytes 0 (Nat.zero_lt_succ _))
  · have hlen : (encode o j).length = (encode o i).length := by
      rw [encode_length, encode_length, Instr.length, hj, Instr.length]
    have henc : encode o j = encode o i :=
      List.ext_getElem hlen fun k hkj hki => (encode_getElem_of_fetch hf k hkj).trans (hbytes k hki)
    rw [hf, encode_injective ho henc]
  · exact absurd hfits (Nat.not_le.2 hends)

/-- A program counter beyond Memory is the fetch's AddressError (R90, R153). -/
theorem fetch_of_pc_beyond (h : 255 < s.pc.toNat) : fetch o s = .error (.addressError, BitVec.ofNat 16 s.pc.toNat) := by
  obtain ⟨-, hw⟩ | ⟨ha, -⟩ | ⟨ha, -⟩ | ⟨ha, -⟩ := s.mem.window_cases s.pc.toNat
  · simp only [fetch, State.window, hw, decode, fetchFault, Nat.add_zero]
  all_goals omega

/-- An opcode byte whose operands reach beyond Memory is a step's AddressError at 256 (R92, R153). -/
theorem stepWith_of_operand_beyond (ho : Function.Injective o) (hr : s.st = .running) {m : Mnemonic} (hpc : s.pc.toNat ≤ 255)
    (hm : s.mem.read s.pc.toNat = o m) (hends : 256 < s.pc.toNat + m.length) :
    stepWith o s = .next (s.raise .addressError 256) := by
  obtain ⟨hfits, -⟩ | ⟨-, hf⟩ := fetch_of_opcode ho hpc hm
  · exact absurd hfits (Nat.not_le.2 hends)
  · exact stepWith_error hr hf

/-- Where the longest instruction fits, the window has its length. -/
theorem Memory.length_window (m : Memory) {a : Nat} (h : a + 3 ≤ 256) : (m.window a).length = 3 := by
  rcases m.window_cases a with ⟨ha, -⟩ | ⟨ha, -⟩ | ⟨ha, -⟩ | ⟨-, hw⟩
  case inr.inr.inr => rw [hw]; rfl
  all_goals omega

theorem State.fetchRoomPc_add_three_le (s : State) : s.fetchRoomPc.toNat + 3 ≤ 256 := by
  unfold State.fetchRoomPc
  split
  next h => exact h
  next => decide

/-- Three bytes placed where the next step fetches are what it sees. -/
theorem window_placeAtFetch (hm : s.mem.wf = true) {bytes : List Byte} (hl : bytes.length = 3) :
    (s.placeAtFetch bytes).window = bytes := by
  have hroom : s.fetchRoomPc.toNat + bytes.length ≤ 256 := hl ▸ s.fetchRoomPc_add_three_le
  have hlen : (s.placeAtFetch bytes).window.length = bytes.length :=
    (Memory.length_window _ s.fetchRoomPc_add_three_le).trans hl.symm
  exact List.ext_getElem hlen fun k hk hkb =>
    (Memory.window_getElem _ _ k hk).trans (Memory.read_writeBytes_inside hm hroom hkb)

/-- Settles O11: of the instructions whose bytes stand at the program counter there is one, since encoding is
injective, and it is fetched. -/
theorem stepRunsExactlyTheFetchedHandler : Obligations.StepRunsExactlyTheFetchedHandler :=
  fun _ _ _ ho hr hfits hbytes => stepWith_ok hr (fetch_of_encode ho hfits hbytes)

/-- Settles O16: no byte to fetch at 256, and operands that reach beyond Memory at 255 and 254. -/
theorem fetchBeyondMemoryRaisesAddressError : Obligations.FetchBeyondMemoryRaisesAddressError := by
  intro o s ho hr
  refine ⟨fun hpc => ?_, fun hpc m hm harity => ?_, fun hpc m hm harity => ?_⟩
  · have hf := fetch_of_pc_beyond (o := o) (s := s) (by omega)
    rw [hpc] at hf
    exact stepWith_error hr hf
  · exact stepWith_of_operand_beyond ho.injective hr (by omega) (hpc ▸ hm) (by rw [hpc, Mnemonic.length]; omega)
  · exact stepWith_of_operand_beyond ho.injective hr (by omega) (hpc ▸ hm) (by rw [hpc, Mnemonic.length]; omega)

/-- Settles O47: the placed bytes are the fetch window of the next step. -/
theorem placedWordRunsNext : Obligations.PlacedWordRunsNext := by
  intro s nbits w i hm hw
  obtain ⟨rest, hd⟩ := decode_of_decodeTableWord hw
  rw [← window_placeAtFetch hm (wordBytes_length nbits w)] at hd
  exact stepWith_ok rfl (fetch_of_decode hd)

/-- Settles O10: what the window decodes to is fetched, and the step is its meaning. -/
theorem stepRunsDecodedInstruction : Obligations.StepRunsDecodedInstruction :=
  fun _ _ _ hr hd => stepWith_ok hr (fetch_of_decode hd)

end Machine
end Sys2Proof
end

section
/-! The statements about LDI and PRN (41_load_and_output.md). -/

namespace Sys2Proof.Machine

/-- Whatever the rest of the instruction, its handler faults on a first register operand outside 0..7 (R154, R159). -/
theorem exec_of_first_regOperand_bad {i : Instr} {a : Byte} {rest : List Byte} (h : i.regOperands = a :: rest)
    (ha : 7 < a.toNat) (s : State) : exec i s = .next (s.raise .registerIndexError (a.setWidth 16)) :=
  exec_of_badRegOperand (badRegOperand_first h ha) s

/-- Settles O19, from LDI's effect, the fault of its register operand, and the decoder's reading of an encoding. -/
theorem ldiLoadsImmediate : Obligations.LdiLoadsImmediate := by
  refine fun s imm => ⟨fun r => ?_, fun a ha => ?_, fun o a rest ho => ?_⟩
  · exact exec_of_effect (.ldi r imm s)
  · exact exec_of_first_regOperand_bad rfl ha s
  · exact decodeOfEncodeIsIdentity o ho (.ldi a imm) rest

/-- Settles O20: the value PRN's effect emits is the register's, and 16 bits hold every byte. -/
theorem prnEmitsRegister : Obligations.PrnEmitsRegister := by
  refine fun s => ⟨fun r => ⟨(s.reg r).setWidth 16, ?_, ?_⟩, fun a ha => ?_⟩
  · exact BitVec.toNat_setWidth_of_le (by decide)
  · exact exec_of_effect (.prn r s)
  · exact exec_of_first_regOperand_bad rfl ha s

end Sys2Proof.Machine
end

section
/-! The statements about the ALU's instructions and its closed set of operations (42_alu.md). -/

namespace Sys2Proof.Machine

/-- A handler of two register operands whose first is legal faults on a second outside 0..7 (R154, R159). -/
theorem exec_of_second_regOperand_bad {i : Instr} {r : RegIdx} {b : Byte} (h : i.regOperands = [regByte r, b])
    (hb : 7 < b.toNat) (s : State) : exec i s = .next (s.raise .registerIndexError (b.setWidth 16)) :=
  exec_of_badRegOperand (badRegOperand_second h hb) s

theorem fetchFault_ne_unsupported (s : State) (e : DecodeError) : (fetchFault s e).1 ≠ .unsupportedOperation := by
  cases e <;> nofun

/-- A fetch faults only where the bytes at `pc` do not decode, with the fault of that failure. -/
theorem fetch_eq_error {o : OpcodeMap} {s : State} {p : CoreFault × InfoWord} (h : fetch o s = .error p) :
    ∃ e, decode o s.window = .error e ∧ p = fetchFault s e := by
  unfold fetch at h
  split at h
  · cases h
  next e he => exact ⟨e, he, (Except.error.inj h).symm⟩

theorem Trap.ne_unsupported {i : Instr} {s : State} {f : CoreFault} {info : InfoWord} (h : Trap i s f info) :
    f ≠ .unsupportedOperation := by
  cases h <;> nofun

/-- Neither the fetch nor a handler takes the sixth fault of the taxonomy (R116, R157). -/
theorem StepFault.ne_unsupported {o : OpcodeMap} {s : State} {f : CoreFault} {info : InfoWord}
    (h : StepFault o s f info) : f ≠ .unsupportedOperation := by
  rcases h with hf | ⟨-, ht⟩
  · obtain ⟨e, -, he⟩ := fetch_eq_error hf
    have hf1 : f = (fetchFault s e).1 := congrArg Prod.fst he
    exact hf1 ▸ fetchFault_ne_unsupported s e
  · exact ht.ne_unsupported

/-- In FAULT_CODES 6 is the code of UnsupportedOperation alone (R151). -/
theorem faultCode_eq_six_iff (f : CoreFault) : Config.faultCode f = 6 ↔ f = .unsupportedOperation := by
  cases f <;> decide

/-- Settles O17: an effect keeps FCAUSE, and the fault a step takes has another code. -/
theorem unsupportedOperationIsNeverRaised : Obligations.UnsupportedOperationIsNeverRaised := by
  intro o s t h ht
  obtain ⟨-, ⟨i, -, he⟩ | ⟨f, info, hf, rfl⟩⟩ := stepWith_next_iff.1 h
  · rwa [he.faultRegs_eq.1] at ht
  · exact absurd ((faultCode_eq_six_iff f).1 ht) hf.ne_unsupported

/-- 16 bits hold every product of two bytes (R37, R111). -/
theorem mulBytes_toNat (u v : Byte) : (mulBytes u v).toNat = u.toNat * v.toNat := by
  have hlt : u.toNat * v.toNat < 2 ^ 8 * 2 ^ 8 := Nat.mul_lt_mul'' u.isLt v.isLt
  exact Nat.mod_eq_of_lt hlt

/-- Settles O21: the value MUL's effect emits is the exact product. -/
theorem mulEmitsExactProduct : Obligations.MulEmitsExactProduct := by
  refine fun s => ⟨fun ra rb => ⟨s.aluMul ra rb, ?_, ?_⟩, fun a b ha => ?_, fun ra b hb => ?_⟩
  · exact mulBytes_toNat _ _
  · exact exec_of_effect (.mul ra rb s)
  · exact exec_of_first_regOperand_bad rfl ha s
  · exact exec_of_second_regOperand_bad rfl hb s

/-- Settles O22: the value ADD's effect writes is the sum under the spec's OVERFLOW_POLICY. -/
theorem addWrapsModulo256 : Obligations.AddWrapsModulo256 := by
  refine fun s => ⟨fun ra rb => ⟨addBytes (s.reg ra) (s.reg rb), ?_, ?_⟩, fun a b ha => ?_, fun ra b hb => ?_⟩
  · exact addBytes_toNat _ _
  · exact exec_of_effect (.add ra rb s)
  · exact exec_of_first_regOperand_bad rfl ha s
  · exact exec_of_second_regOperand_bad rfl hb s

@[simp] theorem compareBytes_l {u v : Byte} : (compareBytes u v).l = true ↔ u.toNat < v.toNat :=
  decide_eq_true_iff

@[simp] theorem compareBytes_g {u v : Byte} : (compareBytes u v).g = true ↔ v.toNat < u.toNat :=
  decide_eq_true_iff

@[simp] theorem compareBytes_e {u v : Byte} : (compareBytes u v).e = true ↔ u = v :=
  decide_eq_true_iff.trans BitVec.toNat_inj

/-- Two bytes are below, equal or above, so the comparison sets a flag, and it sets no more than one (R115). -/
theorem compareBytes_exactlyOne (u v : Byte) :
    (compareBytes u v).l.toNat + (compareBytes u v).g.toNat + (compareBytes u v).e.toNat = 1 := by
  have hmost : _ ≤ 1 := compareBytes_atMostOne u v
  refine hmost.antisymm ?_
  rcases Nat.lt_trichotomy u.toNat v.toNat with h | h | h
  · rw [compareBytes_l.2 h, Bool.toNat_true]; omega
  · rw [compareBytes_e.2 (BitVec.eq_of_toNat_eq h), Bool.toNat_true]; omega
  · rw [compareBytes_g.2 h, Bool.toNat_true]; omega

/-- Settles O23: the flags CMP's effect writes are the comparison's, each read by its own lemma. -/
theorem cmpSetsExactlyOneFlag : Obligations.CmpSetsExactlyOneFlag := by
  refine fun s => ⟨fun ra rb => ⟨compareBytes (s.reg ra) (s.reg rb), compareBytes_l, compareBytes_g, compareBytes_e, ?_, ?_⟩,
    fun a b ha => ?_, fun ra b hb => ?_, fun o a b rest ho => ?_⟩
  · exact compareBytes_exactlyOne _ _
  · exact exec_of_effect (.cmp ra rb s)
  · exact exec_of_first_regOperand_bad rfl ha s
  · exact exec_of_second_regOperand_bad rfl hb s
  · exact decodeOfEncodeIsIdentity o ho (.cmp a b) rest

end Sys2Proof.Machine
end

section
/-! The statements about the jumps (43_jumps.md). -/

namespace Sys2Proof.Machine

variable {s : State}

/-- A JEQ that finds FL.E set jumps (R121). -/
theorem exec_jeq_of_equal (h : s.flags.e = true) (r : RegIdx) :
    exec (.jeq (regByte r)) s = .next (s.setPc (targetOf (s.reg r))) := by
  have he := exec_of_effect (.jeq r s)
  rwa [if_pos h] at he

/-- A JEQ that finds FL.E clear takes the default advance (R94, R121). -/
theorem exec_jeq_of_not_equal (h : s.flags.e = false) (r : RegIdx) :
    exec (.jeq (regByte r)) s = .next (s.advance 2) := by
  have he := exec_of_effect (.jeq r s)
  rwa [if_neg (Bool.eq_false_iff.1 h)] at he

/-- A JNE that finds FL.E clear jumps (R122). -/
theorem exec_jne_of_not_equal (h : s.flags.e = false) (r : RegIdx) :
    exec (.jne (regByte r)) s = .next (s.setPc (targetOf (s.reg r))) := by
  have he := exec_of_effect (.jne r s)
  rwa [if_neg (Bool.eq_false_iff.1 h)] at he

/-- A JNE that finds FL.E set takes the default advance (R94, R122). -/
theorem exec_jne_of_equal (h : s.flags.e = true) (r : RegIdx) :
    exec (.jne (regByte r)) s = .next (s.advance 2) := by
  have he := exec_of_effect (.jne r s)
  rwa [if_pos h] at he

/-- Settles O24: the target is the register's value, and JMP's effect writes `pc` alone. -/
theorem jmpGoesToRegister : Obligations.JmpGoesToRegister := by
  refine fun s => ⟨fun r => ⟨targetOf (s.reg r), ?_, ?_⟩, fun a ha => ?_, fun o a rest ho => ?_⟩
  · exact targetOf_toNat _
  · exact exec_of_effect (.jmp r s)
  · exact exec_of_first_regOperand_bad rfl ha s
  · exact decodeOfEncodeIsIdentity o ho (.jmp a) rest

/-- Settles O25: JEQ's effect on either side of FL.E; its operand is tested before the flag. -/
theorem jeqJumpsWhenEqual : Obligations.JeqJumpsWhenEqual := by
  refine fun s => ⟨fun r h => ⟨targetOf (s.reg r), ?_, ?_⟩, fun r h => ?_, fun a ha => ?_, fun o a rest ho => ?_⟩
  · exact targetOf_toNat _
  · exact exec_jeq_of_equal h r
  · exact exec_jeq_of_not_equal h r
  · exact exec_of_first_regOperand_bad rfl ha s
  · exact decodeOfEncodeIsIdentity o ho (.jeq a) rest

/-- Settles O26: JNE's effect on either side of FL.E; its operand is tested before the flag. -/
theorem jneJumpsWhenNotEqual : Obligations.JneJumpsWhenNotEqual := by
  refine fun s => ⟨fun r h => ⟨targetOf (s.reg r), ?_, ?_⟩, fun r h => ?_, fun a ha => ?_, fun o a rest ho => ?_⟩
  · exact targetOf_toNat _
  · exact exec_jne_of_not_equal h r
  · exact exec_jne_of_equal h r
  · exact exec_of_first_regOperand_bad rfl ha s
  · exact decodeOfEncodeIsIdentity o ho (.jne a) rest

end Sys2Proof.Machine
end

section
/-! The stack instructions one by one (44_stack_and_call.md R130 to R134): the address below the stack pointer, and the
effect or the fault of each. -/

namespace Sys2Proof.Machine

variable {s : State}

/-- Popping what was pushed returns the stack pointer, also at its wrap (R130). -/
@[simp] theorem State.pushAddr_add_one (s : State) : s.pushAddr + 1 = s.reg 7 :=
  BitVec.sub_add_cancel _ _

/-- A byte that was pushed can be popped: its address is not the one StackUnderflow guards (R130, R156). -/
theorem pushAddr_ne_255 (h7 : s.reg 7 ≠ 0) : s.pushAddr ≠ 255 := by
  intro h
  have hnext : s.pushAddr.toNat + 1 = s.sp.toNat := pushAddr_toNat h7
  have hlt : s.sp.toNat < 256 := s.sp.isLt
  rw [h] at hnext
  exact absurd hlt (hnext ▸ lt_irrefl 256)

/-- A POP into another register than the stack pointer increments the stack pointer itself (R132). -/
theorem popTop_of_ne {r : RegIdx} (s : State) (hr : r ≠ 7) : popTop s r = s.reg 7 := if_neg hr

/-- A POP into the stack pointer increments the byte it popped (R132, D14). -/
theorem popTop_seven (s : State) : popTop s 7 = s.mem.read (s.reg 7).toNat := if_pos rfl

/-- A write to the stack pointer supersedes an explicit one (R132, D14). -/
theorem State.setSp_setReg_seven (s : State) (v w : Byte) : (s.setReg 7 v).setSp w = s.setSp w :=
  congrArg (fun regs => { s with regs }) (Vector.set_set _ _)

/-- A return address that fits a byte is stored whole (R133). -/
theorem toNat_returnAddr_byte {n : Nat} (h : n ≤ 255) : (BitVec.ofNat 8 n).toNat = n :=
  Nat.mod_eq_of_lt (Nat.lt_succ_of_le h)

/-- Settles O27: the byte PUSH's effect stores is read back, and its store is the only one. -/
theorem pushStoresBelowStackPointer : Obligations.PushStoresBelowStackPointer := by
  refine fun s hm => ⟨fun r h7 => ⟨_, exec_of_effect (.push r s h7), rfl, pushAddr_toNat h7, ?_, fun a ha => ?_⟩,
    fun r h7 => ?_, fun a ha => ?_⟩
  · exact (Memory.read_write_same _ hm).trans (State.reg_setSp_pushAddr s r)
  · exact Memory.read_write_other _ ha
  · exact exec_of_trap (.pushOverflow r s h7)
  · exact exec_of_first_regOperand_bad rfl ha s

/-- Settles O28: POP's effect and its fault by the pointer it increments, which operand 7 makes the popped byte. -/
theorem popLoadsAtStackPointer : Obligations.PopLoadsAtStackPointer := by
  refine fun s => ⟨fun r hr h7 => ?_, fun r hr h7 => ?_, fun hv => ?_, fun hv => ?_, fun a ha => ?_⟩
  · have htop := popTop_of_ne s hr
    have he := exec_of_effect (.pop r s (htop ▸ h7))
    rwa [htop] at he
  · exact exec_of_trap (.popUnderflow r s ((popTop_of_ne s hr).trans h7))
  · have he := exec_of_effect (.pop 7 s (popTop_seven s ▸ hv))
    rwa [popTop_seven, State.setSp_setReg_seven] at he
  · exact exec_of_trap (.popUnderflow 7 s ((popTop_seven s).trans hv))
  · exact exec_of_first_regOperand_bad rfl ha s

/-- Settles O29: the return address is read back from the one byte CALL's effect stores; the stack test comes first. -/
theorem callStoresReturnAddress : Obligations.CallStoresReturnAddress := by
  refine fun s hm => ⟨fun r h7 hpc => ⟨_, exec_of_effect (.call r s h7 hpc), rfl, ?_, pushAddr_toNat h7, ?_, fun a ha => ?_⟩,
    fun r h7 => ?_, fun r h7 hpc => ?_, fun a ha => ?_⟩
  · exact (targetOf_toNat _).trans (congrArg BitVec.toNat (State.reg_setSp_pushAddr s r))
  · exact (congrArg BitVec.toNat (Memory.read_write_same _ hm)).trans (toNat_returnAddr_byte hpc)
  · exact Memory.read_write_other _ ha
  · exact exec_of_trap (.callOverflow r s h7)
  · exact exec_of_trap (.returnAddr r s h7 hpc)
  · exact exec_of_first_regOperand_bad rfl ha s

/-- Settles O30: the target is the byte at the stack pointer, and RET's effect writes `pc` and `x[7]` alone. -/
theorem retReturnsToStackedAddress : Obligations.RetReturnsToStackedAddress := by
  refine fun s => ⟨fun h7 => ⟨targetOf (s.load s.sp), ?_, ?_⟩, fun h7 => ?_⟩
  · exact targetOf_toNat _
  · exact exec_of_effect (.ret s h7)
  · exact exec_of_trap (.retUnderflow s h7)

end Sys2Proof.Machine
end

section
/-! The stack across two instructions (R135): what was pushed or stacked is found again at the stack pointer. -/

namespace Sys2Proof.Machine

variable {s t u : State}

/-- PUSH of another register than the stack pointer, as the instructions after it find it (R131). -/
theorem exists_exec_push {p : RegIdx} (hm : s.mem.wf = true) (h7 : s.reg 7 ≠ 0) (hp : p ≠ 7) :
    ∃ t, exec (.push (regByte p)) s = .next t ∧ t.reg 7 = s.pushAddr ∧ t.load s.pushAddr = s.reg p ∧
      (∀ r, r ≠ 7 → t.reg r = s.reg r) ∧ t.pc = s.pc + 2 := by
  have hother : ∀ r, r ≠ 7 → (s.setSp s.pushAddr).reg r = s.reg r := fun r hr => State.reg_setSp_other s _ hr.symm
  refine ⟨_, exec_of_effect (.push p s h7), State.sp_setSp s _, ?_, hother, rfl⟩
  exact (Memory.read_write_same _ hm).trans (hother p hp)

/-- Where the stack pointer is as a push at `s` left it, POP loads the byte below and restores the stack pointer. -/
theorem exec_pop_of_pushed {q : RegIdx} (h7 : s.reg 7 ≠ 0) (hq : q ≠ 7) (hsp : t.reg 7 = s.pushAddr) :
    exec (.pop (regByte q)) t = .next (((t.setReg q (t.load s.pushAddr)).setSp (s.reg 7)).advance 2) := by
  have htop : popTop t q = s.pushAddr := (popTop_of_ne t hq).trans hsp
  have hpop := exec_of_effect (.pop q t (htop ▸ pushAddr_ne_255 h7))
  rwa [htop, State.pushAddr_add_one, show t.sp = s.pushAddr from hsp] at hpop

/-- Settles O43: POP finds the pushed byte at the decremented stack pointer, and its increment undoes the decrement. -/
theorem pushThenPopRestores : Obligations.PushThenPopRestores := by
  intro s p q hm hp hq h7
  obtain ⟨t, hpush, hsp, hload, hother, hpc⟩ := exists_exec_push hm h7 hp
  have hpop := exec_pop_of_pushed h7 hq hsp
  rw [hload] at hpop
  refine ⟨t, _, hpush, hpop, ?_, State.sp_setSp _ _, fun r hr => ?_, ?_⟩
  · rw [State.reg_advance, State.reg_setSp_other _ _ hq.symm, State.reg_setReg_same]
  · by_cases hr7 : r = 7
    · subst hr7
      exact State.sp_setSp _ _
    · rw [State.reg_advance, State.reg_setSp_other _ _ (Ne.symm hr7), State.reg_setReg_other _ _ hr.symm, hother r hr7]
  · show t.pc + 2 = s.pc + 4
    rw [hpc, BitVec.add_assoc]
    rfl

/-- A CALL that took effect had room on the stack and a return address that fits a byte, and it stacked that address. -/
theorem Effect.call_eq {r : RegIdx} (h : Effect (.call (regByte r)) s t) :
    s.reg 7 ≠ 0 ∧ s.pc.toNat + 2 ≤ 255 ∧
      ∃ p, t = ((s.setSp s.pushAddr).store s.pushAddr (BitVec.ofNat 8 (s.pc.toNat + 2))).setPc p := by
  generalize regByte r = b at h
  cases h
  case call q h7 hpc => exact ⟨h7, hpc, _, rfl⟩

/-- Where CALL's return-address test passes, the program counter after it does not wrap (R133). -/
theorem pc_add_two_toNat (hpc : s.pc.toNat + 2 ≤ 255) : (s.pc + 2).toNat = s.pc.toNat + 2 := by
  bv_omega

/-- A stacked return address is the program counter after the CALL (R28, R133). -/
theorem targetOf_returnAddr (hpc : s.pc.toNat + 2 ≤ 255) : targetOf (BitVec.ofNat 8 (s.pc.toNat + 2)) = s.pc + 2 :=
  BitVec.eq_of_toNat_eq <| calc
    _ = (BitVec.ofNat 8 (s.pc.toNat + 2)).toNat := targetOf_toNat _
    _ = s.pc.toNat + 2 := toNat_returnAddr_byte hpc
    _ = (s.pc + 2).toNat := (pc_add_two_toNat hpc).symm

/-- Where the stack pointer and the slot at it are as a CALL left them, RET resumes after the CALL and restores the stack
pointer. -/
theorem exec_ret_of_call {r : RegIdx} (hm : s.mem.wf = true) (hcall : Effect (.call (regByte r)) s t)
    (hsp : u.reg 7 = t.reg 7) (hslot : u.mem.read (t.reg 7).toNat = t.mem.read (t.reg 7).toNat) :
    exec .ret u = .next ((u.setPc (s.pc + 2)).setSp (s.reg 7)) := by
  obtain ⟨h7, hpc, p, rfl⟩ := hcall.call_eq
  have hsp' : u.sp = s.pushAddr := hsp.trans (State.sp_setSp s _)
  have hload : u.load u.sp = BitVec.ofNat 8 (s.pc.toNat + 2) := by
    rw [← hsp, show u.reg 7 = s.pushAddr from hsp'] at hslot
    rw [hsp']
    exact hslot.trans (Memory.read_write_same _ hm)
  have hret := exec_of_effect (.ret u (hsp' ▸ pushAddr_ne_255 h7))
  rwa [hload, targetOf_returnAddr hpc, hsp', State.pushAddr_add_one] at hret

/-- Settles O44: RET's target is the program counter after the CALL, which is in range because CALL tested it. -/
theorem callThenRetResumes : Obligations.CallThenRetResumes := by
  intro s r hm h7 hpc
  have hcall := Effect.call r s h7 hpc
  exact ⟨_, exec_of_effect hcall, fun u hsp hslot =>
    ⟨_, exec_ret_of_call hm hcall hsp hslot, pc_add_two_toNat hpc, State.sp_setSp _ _⟩⟩

end Sys2Proof.Machine
end

section
/-! Runs of instructions, and calls nested to any depth (R135): what a call and everything nested in it leave to the caller
once it has returned. -/

namespace Sys2Proof.Machine

variable {i : Instr} {is js : List Instr} {s t u : State}

theorem execAll_cons (h : exec i s = .next t) : execAll (i :: is) s = execAll is t := by
  simp only [execAll, h]

theorem pcTrace_cons (h : exec i s = .next t) : pcTrace (i :: is) s = t.pc :: pcTrace is t := by
  simp only [pcTrace, h]

theorem pcsOf_cons (h : exec i s = .next t) : pcsOf (i :: is) s = s.pc :: pcsOf is t := by
  simp only [pcsOf, pcTrace_cons h, List.length_cons, List.take_succ_cons]

/-- A run of more than no instructions begins with one. -/
theorem execAll_cons_next (h : execAll (i :: is) s = .next t) : ∃ u, exec i s = .next u ∧ execAll is u = .next t := by
  obtain ⟨u, hu⟩ := exec_exists_next i s
  exact ⟨u, hu, execAll_cons hu ▸ h⟩

/-- One run after another: the second begins where the first ends, and so do its addresses. -/
theorem execAll_append (h : execAll is s = .next t) :
    execAll (is ++ js) s = execAll js t ∧ pcTrace (is ++ js) s = pcTrace is s ++ pcTrace js t := by
  induction is generalizing s with
  | nil =>
    cases h
    exact ⟨rfl, rfl⟩
  | cons i is ih =>
    obtain ⟨u, hu, hrest⟩ := execAll_cons_next h
    obtain ⟨hexec, hpcs⟩ := ih hrest
    rw [List.cons_append, execAll_cons hu, pcTrace_cons hu, pcTrace_cons hu, hexec, hpcs]
    exact ⟨rfl, rfl⟩

/-- A meaning that ends in RUNNING took effect, and began in RUNNING. -/
theorem effect_of_exec_running (h : exec i s = .next t) (ht : t.st = .running) : s.st = .running ∧ Effect i s t := by
  obtain he | ⟨f, info, -, rfl⟩ := exec_next h
  · obtain hst | ⟨-, hhalt⟩ := he.st_eq
    · exact ⟨hst.symm.trans ht, he⟩
    · rw [hhalt] at ht
      cases ht
  · cases ht

/-- A run that ends in RUNNING was in RUNNING all along. -/
theorem st_running_of_execAll (h : execAll is s = .next t) (ht : t.st = .running) : s.st = .running := by
  induction is generalizing s with
  | nil =>
    cases h
    exact ht
  | cons i is ih =>
    obtain ⟨u, hu, hrest⟩ := execAll_cons_next h
    exact (effect_of_exec_running hu (ih hrest)).1

/-- What a subroutine called at `s` leaves to its caller, returned to at `u`: the registers, the flags, ST and the output,
and the stack from the stack pointer upward. -/
structure Restored (s u : State) : Prop where
  regs : u.regs = s.regs
  flags : u.flags = s.flags
  out : u.out = s.out
  st : u.st = s.st
  stack : ∀ a, (s.reg 7).toNat ≤ a → u.mem.read a = s.mem.read a

theorem Restored.refl (s : State) : Restored s s :=
  ⟨rfl, rfl, rfl, rfl, fun _ _ => rfl⟩

/-- A caller to whom everything nested in its CALL is restored returns to the address after the CALL, and then all is
restored to its own caller (R133 to R135). -/
theorem Restored.ret {r : RegIdx} (hm : s.mem.wf = true) (hcall : Effect (.call (regByte r)) s t) (h : Restored t u) :
    ∃ v, exec .ret u = .next v ∧ v.pc = s.pc + 2 ∧ Restored s v := by
  have hsp : u.reg 7 = t.reg 7 := congrArg (·[(7 : RegIdx)]) h.regs
  refine ⟨_, exec_ret_of_call hm hcall hsp (h.stack _ le_rfl), rfl, ?_⟩
  obtain ⟨h7, -, p, rfl⟩ := hcall.call_eq
  refine ⟨?_, h.flags, h.out, h.st, fun a ha => ?_⟩
  · show u.regs.set 7 (s.reg 7) = s.regs
    rw [h.regs]
    exact (Vector.set_set _ _).trans (Vector.set_getElem_self _)
  · have hbelow : s.pushAddr.toNat + 1 = (s.reg 7).toNat := pushAddr_toNat h7
    have habove : s.pushAddr.toNat < a := by omega
    refine (h.stack a ?_).trans (Memory.read_write_other _ habove.ne')
    exact (congrArg BitVec.toNat (State.sp_setSp s _)).trans_le habove.le

/-- After calls that took effect, as many returns restore everything to the first caller, at the return addresses in
reverse order: by induction on the calls, the first call's return being the last. -/
theorem returns_restore (rs : List RegIdx) (hm : s.mem.wf = true) (ht : t.st = .running)
    (h : execAll (rs.map fun r => .call (regByte r)) s = .next t) :
    pcTrace (List.replicate rs.length .ret) t =
      ((pcsOf (rs.map fun r => .call (regByte r)) s).map (· + 2)).reverse ∧
    ∃ u, execAll (List.replicate rs.length .ret) t = .next u ∧ Restored s u := by
  induction rs generalizing s with
  | nil =>
    cases h
    exact ⟨rfl, t, rfl, .refl t⟩
  | cons r rs ih =>
    obtain ⟨s1, hcall, hrest⟩ := execAll_cons_next h
    have heff := (effect_of_exec_running hcall (st_running_of_execAll hrest ht)).2
    obtain ⟨hpcs, u, hu, hres⟩ := ih (heff.mem_wf hm) hrest
    obtain ⟨v, hret, hpc, hv⟩ := hres.ret hm heff
    obtain ⟨hexec, htrace⟩ := execAll_append (js := [.ret]) hu
    rw [List.length_cons, List.replicate_succ', hexec, htrace, hpcs, execAll_cons hret, pcTrace_cons hret, hpc,
      List.map_cons, pcsOf_cons hcall, List.map_cons, List.reverse_cons]
    exact ⟨rfl, v, rfl, hv⟩

/-- Settles O45: what the returns restore to the first caller, which was in RUNNING. -/
theorem nestedCallsReturnInReverseOrder : Obligations.NestedCallsReturnInReverseOrder := by
  intro rs s t hm hs h ht
  obtain ⟨hpcs, u, hu, hres⟩ := returns_restore rs hm ht h
  exact ⟨hpcs, u, hu, hres.st.trans hs, hres.regs, hres.flags, hres.out⟩

end Sys2Proof.Machine
end

section
/-! HLT (45_halt.md R140): its byte is the whole instruction, so it is fetched at every address of Memory, and it ends the
run. -/

namespace Sys2Proof.Machine

variable {o : OpcodeMap} {s : State}

/-- HLT's byte is fetched as HLT at every address, 255 among them, whatever follows it (R92, R140). -/
theorem fetch_of_hlt_byte (ho : Function.Injective o) (hpc : s.pc.toNat ≤ 255) (hm : s.mem.read s.pc.toNat = o .hlt) :
    fetch o s = .ok .hlt := by
  obtain ⟨bs, hw⟩ := s.mem.window_eq_cons hpc
  have hwin : s.window = o .hlt :: bs := hm ▸ hw
  exact fetch_of_decode (hwin ▸ decode_opcode ho .hlt bs)

/-- Outside RUNNING there is no step (R95). -/
theorem stepWith_ne_next (hs : s.st ≠ .running) (u : State) : stepWith o s ≠ .next u :=
  fun h => hs (stepWith_next h).1

/-- Settles O31: the step at HLT's byte is HLT's effect, whose advance does not wrap and whose ST no step leaves. -/
theorem hltHalts : Obligations.HltHalts := by
  refine ⟨fun s => exec_of_effect (.hlt s), fun o s ho hr hpc hm => ?_⟩
  have hf : fetch o s = .ok .hlt := fetch_of_hlt_byte ho.injective hpc hm
  refine ⟨_, (stepWith_ok hr hf).trans (exec_of_effect (.hlt s)), rfl, ?_, stepWith_ne_next nofun⟩
  exact pc_add_length_toNat_of_fetch hf

end Sys2Proof.Machine
end

section
/-! The faults of a step by their conditions (60_exceptions.md R151 to R156, R159): the fault a fetch takes, the fault a
handler takes, and the sequential list of tests that names the one as the other. -/

namespace Sys2Proof.Machine

variable {o : OpcodeMap} {i : Instr} {s t : State} {f : CoreFault} {info : InfoWord}

/-- The fault a fetch takes, with the condition that raises it (R90 to R92, R152, R153). -/
inductive FetchTrap (o : OpcodeMap) (s : State) : CoreFault → InfoWord → Prop
  | pcBeyond : 255 < s.pc.toNat → FetchTrap o s .addressError (BitVec.ofNat 16 s.pc.toNat)
  | noOpcode : s.pc.toNat ≤ 255 → decodeOpcode o (s.mem.read s.pc.toNat) = none →
      FetchTrap o s .illegalInstruction ((s.mem.read s.pc.toNat).setWidth 16)
  | operandBeyond {m} : s.pc.toNat ≤ 255 → decodeOpcode o (s.mem.read s.pc.toNat) = some m →
      256 < s.pc.toNat + m.length → FetchTrap o s .addressError 256

/-- Every fault of a fetch has one of these conditions. -/
theorem fetchTrap_of_fetch (h : fetch o s = .error (f, info)) : FetchTrap o s f info := by
  obtain hpc | hpc := Nat.lt_or_ge 255 s.pc.toNat
  · rw [fetch_of_pc_beyond hpc] at h
    cases h
    exact .pcBeyond hpc
  obtain ⟨bs, hw⟩ := s.mem.window_eq_cons hpc
  obtain ⟨e, hd, he⟩ := fetch_eq_error h
  obtain ⟨b, rest, hb, rfl, hno⟩ | ⟨rfl, hnil | ⟨b, rest, m, hb, hm, hlt⟩⟩ := decode_error hd
  · obtain rfl : s.mem.read s.pc.toNat = b := (List.cons.inj (hw.symm.trans hb)).1
    cases he
    exact .noOpcode hpc (decodeOpcode_none.2 hno)
  · exact absurd (hw.symm.trans hnil) (List.cons_ne_nil _ _)
  · obtain rfl : s.mem.read s.pc.toNat = b := (List.cons.inj (hw.symm.trans hb)).1
    have hshort : s.window.length < m.length := by
      rw [hb, Mnemonic.length, List.length_cons]
      omega
    have hend : s.pc.toNat + s.window.length = 256 :=
      Memory.add_length_window_eq hpc (hshort.trans_le (Nat.add_le_add_left m.arity_le_two 1))
    rw [fetchFault, hend] at he
    cases he
    exact .operandBeyond hpc hm (by omega)

/-- A fetched instruction is what the mnemonic found for the byte at `pc` makes of the two bytes after it (R72, R79). -/
theorem ofBytes_of_fetch (h : fetch o s = .ok i) :
    decodeOpcode o (s.mem.read s.pc.toNat) = some i.mnemonic ∧
      Instr.ofBytes i.mnemonic (s.mem.read (s.pc.toNat + 1)) (s.mem.read (s.pc.toNat + 2)) = i := by
  have hbyte := encode_getElem_of_fetch h
  constructor
  · obtain ⟨rest, hd⟩ := fetch_ok h
    have hw : s.window = o i.mnemonic :: (i.operands ++ rest) := eq_encode_append_of_decode hd
    have hopc : o i.mnemonic = s.mem.read s.pc.toNat := hbyte 0 (Nat.zero_lt_succ _)
    rw [hw, decode, hopc] at hd
    split at hd
    next => cases hd
    next m hm => rw [hm, (decodeOperands_ok hd).1]
  · cases i
    case ret | hlt => rfl
    case prn | jmp | jeq | jne | push | pop | call => rw [← hbyte 1 (Nat.one_lt_succ_succ _)]; rfl
    case ldi | mul | add | cmp => rw [← hbyte 1 (Nat.one_lt_succ_succ _), ← hbyte 2 (Nat.lt_add_one 2)]; rfl

/-- An instruction is well formed exactly where no register operand is bad (R74). -/
theorem badRegOperand_eq_none_iff : i.badRegOperand = none ↔ i.wellFormed = true := by
  simp [Instr.badRegOperand, Instr.wellFormed]

/-- Operand bytes that name registers are not bad (R74). -/
theorem badRegOperand_of_regBytes {rs : List RegIdx} (h : i.regOperands = rs.map regByte) : i.badRegOperand = none := by
  rw [badRegOperand_eq_none_iff]
  simp [Instr.wellFormed, h, regByte_in_range]

/-- Tests 5 to 8 of R159: the fault a handler takes, or none. -/
def handlerFault (i : Instr) (s : State) : Option (CoreFault × InfoWord) :=
  match i.badRegOperand with
  | some b => some (.registerIndexError, b.setWidth 16)
  | none => i.stackFault s

theorem handlerFault_of_bad {b : Byte} (h : i.badRegOperand = some b) (s : State) :
    handlerFault i s = some (.registerIndexError, b.setWidth 16) := by
  simp only [handlerFault, h]

theorem handlerFault_of_regBytes {rs : List RegIdx} (h : i.regOperands = rs.map regByte) (s : State) :
    handlerFault i s = i.stackFault s := by
  simp only [handlerFault, badRegOperand_of_regBytes h]

theorem regByte_eq_seven_iff {r : RegIdx} : regByte r = 7 ↔ r = 7 := by
  rw [← BitVec.toNat_inj, regByte_toNat]
  exact Fin.val_inj (b := 7)

/-- The pointer POP increments is the one its stack test is about (R132, D14). -/
theorem stackFault_pop (r : RegIdx) (s : State) :
    (Instr.pop (regByte r)).stackFault s = if popTop s r = 255 then some (.stackUnderflow, 255) else none := by
  simp only [Instr.stackFault, regByte_eq_seven_iff]
  rfl

/-- The tests name the fault of every trap. -/
theorem Trap.handlerFault_eq (h : Trap i s f info) : handlerFault i s = some (f, info) := by
  cases h
  case reg _ hb => exact handlerFault_of_bad hb s
  case pushOverflow r h0 | callOverflow r h0 =>
    exact (handlerFault_of_regBytes (rs := [r]) rfl s).trans (if_pos h0)
  case popUnderflow r h0 =>
    exact (handlerFault_of_regBytes (rs := [r]) rfl s).trans ((stackFault_pop r s).trans (if_pos h0))
  case retUnderflow h0 => exact if_pos h0
  case returnAddr r h0 h1 =>
    exact (handlerFault_of_regBytes (rs := [r]) rfl s).trans ((if_neg h0).trans (if_pos h1))

/-- Where an instruction takes effect, the tests name no fault. -/
theorem Effect.handlerFault_eq (h : Effect i s t) : handlerFault i s = none := by
  cases h
  case ldi r _ | prn r | jmp r | jeq r | jne r => exact handlerFault_of_regBytes (rs := [r]) rfl s
  case mul r q | add r q | cmp r q => exact handlerFault_of_regBytes (rs := [r, q]) rfl s
  case push r h0 => exact (handlerFault_of_regBytes (rs := [r]) rfl s).trans (if_neg h0)
  case pop r h0 => exact (handlerFault_of_regBytes (rs := [r]) rfl s).trans ((stackFault_pop r s).trans (if_neg h0))
  case call r h0 h1 =>
    exact (handlerFault_of_regBytes (rs := [r]) rfl s).trans ((if_neg h0).trans (if_neg (Nat.not_lt.2 h1)))
  case ret h0 => exact if_neg h0
  case hlt => rfl

/-- The information of an AddressError at the first address beyond Memory (R153). -/
theorem info_eq_256 {n : Nat} (h : n = 256) : BitVec.ofNat 16 n = 256 :=
  congrArg (BitVec.ofNat 16) h

/-- The first four tests of R159 name the fault of a fetch. -/
theorem FetchTrap.firstFault_eq (h : FetchTrap o s f info) :
    firstFault s (decodeOpcode o (s.mem.read s.pc.toNat)) = some (f, info) := by
  cases h
  case pcBeyond hpc => exact if_pos hpc
  case noOpcode hpc hno =>
    rw [hno]
    exact if_neg (Nat.not_lt.2 hpc)
  case operandBeyond m hpc hm hlt =>
    have hlen : 256 < s.pc.toNat + (1 + m.arity) := hlt
    have harity := m.arity_le_two
    rw [hm]
    refine (if_neg (Nat.not_lt.2 hpc)).trans ?_
    obtain h255 | h255 := Nat.lt_or_ge 255 (s.pc.toNat + 1)
    · have hone : 1 ≤ m.arity := by omega
      have hend : s.pc.toNat + 1 = 256 := by omega
      exact (if_pos ⟨hone, h255⟩).trans (congrArg (fun w => some (CoreFault.addressError, w)) (info_eq_256 hend))
    · have htwo : m.arity = 2 ∧ 255 < s.pc.toNat + 2 := by omega
      have hend : s.pc.toNat + 2 = 256 := by omega
      exact (if_neg (not_and_of_not_right _ (Nat.not_lt.2 h255))).trans
        ((if_pos htwo).trans (congrArg (fun w => some (CoreFault.addressError, w)) (info_eq_256 hend)))

/-- At a fetched instruction the list of tests goes on to those of its handler. -/
theorem firstFault_of_fetch (h : fetch o s = .ok i) :
    firstFault s (decodeOpcode o (s.mem.read s.pc.toNat)) = handlerFault i s := by
  obtain ⟨hm, hi⟩ := ofBytes_of_fetch h
  have hfits : s.pc.toNat + (1 + i.mnemonic.arity) ≤ 256 := pc_add_length_le_of_fetch h
  rw [hm]
  refine (if_neg (by omega)).trans ((if_neg (by omega)).trans ((if_neg (by omega)).trans ?_))
  exact congrArg (handlerFault · s) hi

/-- The list of tests names the fault of every step. -/
theorem StepFault.firstFault_eq (h : StepFault o s f info) :
    firstFault s (decodeOpcode o (s.mem.read s.pc.toNat)) = some (f, info) := by
  obtain hf | ⟨hf, ht⟩ := h
  · exact (fetchTrap_of_fetch hf).firstFault_eq
  · exact (firstFault_of_fetch hf).trans ht.handlerFault_eq

end Sys2Proof.Machine
end

section
/-! The statements about the faults (60_exceptions.md). -/

namespace Sys2Proof.Machine

variable {i : Instr} {s : State} {info : InfoWord}

/-- Settles O7: no opcode is 0, and 0 is the byte at 0. -/
theorem emptyImageRaisesIllegalInstruction : Obligations.EmptyImageRaisesIllegalInstruction := by
  intro o spInit ho
  have hf : fetch o (State.resetWith spInit) = .error (.illegalInstruction, 0) :=
    fetch_of_no_opcode (Nat.zero_le _) ho.nonzero
  exact ⟨_, _, rfl, stepWith_error rfl hf, rfl, rfl⟩

/-- In FAULT_CODES 3 is the code of RegisterIndexError alone (R151). -/
theorem faultCode_eq_three_iff (f : CoreFault) : Config.faultCode f = 3 ↔ f = .registerIndexError := by
  cases f <;> decide

/-- A RegisterIndexError of a handler is one of a bad register operand (R154). -/
theorem Trap.exists_badRegOperand (h : Trap i s .registerIndexError info) : ∃ b, i.badRegOperand = some b := by
  cases h
  case reg b _ hb => exact ⟨b, hb⟩

/-- Settles O32: without a bad register operand neither an effect nor a trap of the instruction brings the code 3. -/
theorem badRegisterOperandFaults : Obligations.BadRegisterOperandFaults := by
  refine fun i s => ⟨fun a rest h ha => ?_, fun a b h ha hb => ?_, fun hwf hs t ht hcode => ?_⟩
  · exact exec_of_first_regOperand_bad h ha s
  · obtain ⟨r, rfl⟩ | hbad := byte_isReg_or_bad a
    · exact exec_of_second_regOperand_bad h hb s
    · exact absurd ha (Nat.not_le.2 hbad)
  · obtain he | ⟨f, info, htrap, rfl⟩ := exec_next ht
    · exact hs (he.faultRegs_eq.1 ▸ hcode)
    · obtain rfl := (faultCode_eq_three_iff f).1 hcode
      obtain ⟨b, hb⟩ := htrap.exists_badRegOperand
      rw [badRegOperand_eq_none_iff.2 hwf] at hb
      cases hb

/-- Settles O15: the list of tests names the fault of a step that faults, and names none where a step is an effect. -/
theorem faultTestsHaveTheSpecsOrder : Obligations.FaultTestsHaveTheSpecsOrder := by
  intro o s hr
  obtain ⟨t, ht⟩ := stepWith_exists_next_iff.2 hr
  obtain ⟨-, ⟨i, hf, he⟩ | ⟨f, info, hf, rfl⟩⟩ := stepWith_next_iff.1 ht
  · rw [firstFault_of_fetch hf, he.handlerFault_eq]
    exact ⟨nofun, fun _ => ⟨t, ht, he.st_ne_faulted hr⟩⟩
  · rw [hf.firstFault_eq]
    refine ⟨fun g n h => ?_, nofun⟩
    cases h
    exact ht

/-- A byte as fault information keeps its value (R35). -/
theorem toNat_info (b : Byte) : (b.setWidth 16).toNat = b.toNat :=
  BitVec.toNat_setWidth_of_le (by decide)

/-- Settles O14: an effect leaves the core out of FAULTED, and each fault of a fetch or of a handler is the row of its
code. -/
theorem faultsArePreciseAndCoded : Obligations.FaultsArePreciseAndCoded := by
  intro o s t hpc h ht
  obtain ⟨hr, ⟨i, -, he⟩ | ⟨f, info, hf, rfl⟩⟩ := stepWith_next_iff.1 h
  · exact absurd ht (he.st_ne_faulted hr)
  refine ⟨rfl, ?_⟩
  obtain hf | @⟨i, hf, htrap⟩ := hf
  · cases fetchTrap_of_fetch hf
    case pcBeyond hlt =>
      have hpc' : s.pc.toNat = 256 := by omega
      exact .inr (.inl ⟨rfl, congrArg BitVec.toNat (info_eq_256 hpc'), .inl hpc'⟩)
    case noOpcode hle hno => exact .inl ⟨rfl, hle, toNat_info _, decodeOpcode_none.1 hno⟩
    case operandBeyond m hle hm hlt => exact .inr (.inl ⟨rfl, rfl, .inr (.inl ⟨m, decodeOpcode_some hm, hle, hlt⟩)⟩)
  · cases htrap
    case reg b hlt hb =>
      have hinfo : (s.raise .registerIndexError (b.setWidth 16)).finfo.toNat = b.toNat := toNat_info b
      exact .inr (.inr (.inl ⟨rfl, hinfo ▸ hlt, hinfo ▸ Nat.le_of_lt_succ b.isLt, i, b, hf, hb, hinfo⟩))
    case pushOverflow r h0 => exact .inr (.inr (.inr (.inl ⟨rfl, rfl, h0, r, .inl hf⟩)))
    case callOverflow r h0 => exact .inr (.inr (.inr (.inl ⟨rfl, rfl, h0, r, .inr hf⟩)))
    case popUnderflow r h0 => exact .inr (.inr (.inr (.inr ⟨rfl, rfl, .inr ⟨r, hf, h0⟩⟩)))
    case retUnderflow h0 => exact .inr (.inr (.inr (.inr ⟨rfl, rfl, .inl ⟨hf, h0⟩⟩)))
    case returnAddr r h0 hlt =>
      have hfits : s.pc.toNat + 2 ≤ 256 := pc_add_length_le_of_fetch hf
      have hend : s.pc.toNat + 2 = 256 := by omega
      exact .inr (.inl ⟨rfl, congrArg BitVec.toNat (info_eq_256 hend), .inr (.inr ⟨r, hf, h0, hend⟩)⟩)

end Sys2Proof.Machine
end

section
/-! The launch state (70_reset_and_hazards.md R180, R183): the reset register file, and what a loaded image reads as. -/

namespace Sys2Proof.Machine

/-- The stack pointer starts as `SP_INIT` (R24). -/
@[simp] theorem State.reg_resetWith_sp (spInit : RegWord) : (State.resetWith spInit).reg 7 = spInit := rfl

/-- Every other register starts as 0 (R41). -/
theorem State.reg_resetWith_other (spInit : RegWord) {r : RegIdx} (h : r ≠ 7) : (State.resetWith spInit).reg r = 0 := by
  have hne : (Config.spIndex : Nat) ≠ r := fun he => h (Fin.ext he.symm)
  simp [State.reg, State.resetWith, Vector.getElem_set_ne _ _ hne]

/-- An image that fits is loaded over the reset values (R180). -/
theorem State.launch_of_fits (spInit : RegWord) {image : List Byte} (h : image.length ≤ 256) :
    State.launch spInit image = some { State.resetWith spInit with mem := Memory.writeBytes [] 0 image } :=
  if_pos h

/-- An image longer than Memory is not loaded (R58). -/
theorem State.launch_of_too_long (spInit : RegWord) {image : List Byte} (h : 256 < image.length) :
    State.launch spInit image = none :=
  if_neg (Nat.not_le.2 h)

/-- Empty memory with an image written from 0 on reads as the image, and as 0 beyond it (R183). -/
theorem Memory.read_writeBytes_image {image : List Byte} (h : image.length ≤ 256) (a : Nat) :
    (Memory.writeBytes [] 0 image).read a = image.getD a 0 := by
  obtain ha | ha := Nat.lt_or_ge a image.length
  · have hin := Memory.read_writeBytes_inside (m := []) (a := 0) rfl (by omega) ha
    rw [Nat.zero_add] at hin
    rw [hin, List.getD_eq_getElem _ _ ha]
  · rw [Memory.read_writeBytes_other (by omega), List.getD_eq_default _ _ ha]
    rfl

/-- Settles O6: a launch is the reset values under the image, or nothing when the image does not fit. -/
theorem launchStateHoldsImage : Obligations.LaunchStateHoldsImage := by
  refine ⟨State.launch_of_fits 0 (Nat.zero_le _), fun spInit image => ⟨fun hfits => ?_, State.launch_of_too_long spInit⟩⟩
  exact ⟨_, State.launch_of_fits spInit hfits, fun _ => State.reg_resetWith_other spInit, State.reg_resetWith_sp spInit,
    rfl, rfl, rfl, rfl, rfl, rfl, fun a _ => Memory.read_writeBytes_image hfits a⟩

end Sys2Proof.Machine
end
